-- ==== Sys2Proof/Config.lean ====
section
/-! DEFINITION. The parameters of 00_scope.md R7, each with the value the spec gives it, and the
values the spec leaves open: the default step budget and the host's answers during a run. -/

namespace Sys2Proof

/-- Where `RES` may stand as an operand (R7 `RES_OPERAND_POLICY`, 10_state.md R22): `everywhere`,
or everywhere but as the destination of LOAD. -/
inductive ResOperandPolicy where
  | everywhere
  | readOnly
deriving DecidableEq, Repr

/-- The policy the spec decides (R7, D2). -/
def Config.resOperandPolicy : ResOperandPolicy := .everywhere

/-- `MAX_STEPS`, the default step budget: OPEN in the spec (R7, D19), so no value can be proved of it. -/
opaque Config.maxStepsDefault : Nat

/-- The default of `traceEnabled` (10_state.md R29, D35). -/
def Config.traceEnabledDefault : Bool := false

/-- The default of `stepDelay`: "pacing, default zero" (R29). -/
def Config.stepDelayDefault : Nat := 0

/-- `N_MAX`, the longest program accepted: "the model has no limit" (R7, D27). -/
def Config.nMax : Option Nat := none

/-- FREE VALUE. The observer's answer to the snapshot of draw number k (44_engine.md R171: "an
input value that is unconstrained at each step"). -/
opaque Config.observerStop : Nat → Bool

/-- FREE VALUE. The host's stop signal as sampled at draw number k (44_engine.md R172). -/
opaque Config.cancelRequested : Nat → Bool

end Sys2Proof
end

