-- ==== Sys2Proof/Word.lean ====
section
/-! DEFINITION. The value types of the block: the 8-bit register value (00_scope.md R7 `WIDTH`,
10_state.md R23), and instruction text as lists of characters (00_scope.md R10, 30_encoding.md R60). -/

namespace Sys2Proof

/-- A register value: unsigned, 8 bits, always in [0, 255] (R7, R23). -/
abbrev Byte := BitVec 8

/-- One instruction line as the program store holds it: its characters in order (R60). -/
abbrev Line := List Char

/-- A token of a line: a maximal run of non-whitespace characters (R10, R61). -/
abbrev Token := List Char

/-- The label table: name and instruction index pairs, the binding found first being the one in
force (20_memory.md R44). -/
abbrev LabelTable := List (Token × Nat)

end Sys2Proof
end

