-- ==== Sys2Proof/Syntax.lean ====
section
/-! DEFINITION. The decoded instruction: one constructor per row of spec/opcode_table.json, with
the operand types of 30_encoding.md R71, and the five error kinds of 60_exceptions.md R200. -/

namespace Sys2Proof

/-- The register names: the general registers of 10_state.md R20 and the result register of R22. -/
inductive RegName where
  | A | B | C | D | RES
deriving DecidableEq, Repr

/-- The general-purpose register names, `GPR_NAMES` (00_scope.md R7, 10_state.md R20). -/
def RegName.generals : List RegName := [.A, .B, .C, .D]

/-- The operations of the ALU (30_encoding.md R71, 40_alu.md R100). -/
inductive AluOp where
  | add | sub | mul | div
deriving DecidableEq, Repr

/-- The conditions of the jumps (30_encoding.md R71). -/
inductive Cond where
  | always | ifZero | ifNotZero | ifCarry | ifNotCarry
deriving DecidableEq, Repr

/-- The source operand of LOAD: a register, or an unbounded literal (30_encoding.md R69, R71). -/
inductive Src where
  | reg (r : RegName)
  | imm (n : Nat)
deriving DecidableEq, Repr

/-- The instruction set (30_encoding.md R73), each jump with its resolved target (R71). -/
inductive Instr where
  | add (r1 r2 : RegName)
  | sub (r1 r2 : RegName)
  | mul (r1 r2 : RegName)
  | div (r1 r2 : RegName)
  | load (src : Src) (rd : RegName)
  | jmp (target : Nat)
  | jz (target : Nat)
  | jnz (target : Nat)
  | jc (target : Nat)
  | jnc (target : Nat)
  | print (r : RegName)
deriving DecidableEq, Repr

/-- The five error kinds, and no other (60_exceptions.md R200). -/
inductive ErrorKind where
  | unknownOpcode
  | unknownRegister
  | malformedInstruction
  | divisionByZero
  | invalidJumpTarget
deriving DecidableEq, Repr

/-- The opcode tokens (30_encoding.md R73). -/
inductive Opcode where
  | add | sub | mul | div | load | jmp | jz | jnz | jc | jnc | print
deriving DecidableEq, Repr

/-- What the ALU returns when it does not report division by zero (40_alu.md R100). -/
structure AluOut where
  res : Byte
  carry : Bool
  zero : Bool
deriving DecidableEq, Repr

/-- What a source line is: blank, a label declaration, or an instruction line (30_encoding.md R85 to R87). -/
inductive SourceLine where
  | blank
  | label (name : Token)
  | instr (line : Line)
deriving DecidableEq, Repr

end Sys2Proof
end

