-- ==== Sys2Proof/WellFormed.lean ====
section
/-! DEFINITION. Which decoded instructions the decoder can produce for a program of N instructions:
30_encoding.md R71 (a jump's target lies in [0, N]) and R68 (RES as LOAD's destination under the
`readOnly` policy). -/

namespace Sys2Proof

/-- A jump target is resolved to an index of the program or one past its last instruction
(30_encoding.md R71, 42_control.md R130). -/
def wellFormedTarget (n target : Nat) : Bool := decide (target ≤ n)

/-- RES may be LOAD's destination unless the policy is `readOnly` (30_encoding.md R68). -/
def wellFormedDest : ResOperandPolicy → RegName → Bool
  | .everywhere, _ => true
  | .readOnly, rd => decide (rd ≠ .RES)

/-- Well-formedness of an instruction for a program of `n` instructions under a policy. -/
def Instr.wellFormed (policy : ResOperandPolicy) (n : Nat) : Instr → Bool
  | .add _ _ => true
  | .sub _ _ => true
  | .mul _ _ => true
  | .div _ _ => true
  | .load _ rd => wellFormedDest policy rd
  | .jmp t => wellFormedTarget n t
  | .jz t => wellFormedTarget n t
  | .jnz t => wellFormedTarget n t
  | .jc t => wellFormedTarget n t
  | .jnc t => wellFormedTarget n t
  | .print _ => true

end Sys2Proof
end

