-- ==== Sys2Proof/Decode.lean ====
section
/-! DEFINITION. The tokenizer, the operand resolvers and the decoder of 30_encoding.md R61 to R75
and 42_control.md R130, total on every line; then the encoder, which writes an instruction as the
line of R74 and R80; then the numbering of a line's characters as one word, for the host. -/

namespace Sys2Proof

/-! ### Tokens (R61) -/

/-- The whitespace characters: space, horizontal tab, line feed, vertical tab, form feed and
carriage return, and no other (R61, D4). -/
def isSpace (c : Char) : Bool := [0x20, 0x09, 0x0A, 0x0B, 0x0C, 0x0D].contains c.toNat

/-- The token whose characters were read so far, last one first; none when none was read. -/
def closeToken : Token → List Token
  | [] => []
  | c :: cs => [(c :: cs).reverse]

/-- The tokens of the rest of a line, `run` being the token in progress, last character first. -/
def tokensFrom : Token → Line → List Token
  | run, [] => closeToken run
  | run, c :: cs => if isSpace c then closeToken run ++ tokensFrom [] cs else tokensFrom (c :: run) cs

/-- `tokens(line)`: the maximal runs of non-whitespace characters, in order (R61). -/
def tokens (line : Line) : List Token := tokensFrom [] line

/-! ### Opcodes (R62, R73, R74) -/

/-- The spelling of each opcode token (R73). -/
def Opcode.mnemonic : Opcode → Token
  | .add => ['A', 'D', 'D']
  | .sub => ['S', 'U', 'B']
  | .mul => ['M', 'U', 'L']
  | .div => ['D', 'I', 'V']
  | .load => ['L', 'O', 'A', 'D']
  | .jmp => ['J', 'M', 'P']
  | .jz => ['J', 'Z']
  | .jnz => ['J', 'N', 'Z']
  | .jc => ['J', 'C']
  | .jnc => ['J', 'N', 'C']
  | .print => ['P', 'R', 'I', 'N', 'T']

/-- The opcode map is closed: these eleven and no others (R73). -/
def Opcode.all : List Opcode := [.add, .sub, .mul, .div, .load, .jmp, .jz, .jnz, .jc, .jnc, .print]

/-- The opcode a token spells, by exact, case-sensitive equality (R62). -/
def Opcode.ofToken (tok : Token) : Option Opcode := Opcode.all.find? (fun op => op.mnemonic = tok)

/-- `ARITY`, the operand count of each opcode (R74). -/
def Opcode.arity : Opcode → Nat
  | .add | .sub | .mul | .div | .load => 2
  | .jmp | .jz | .jnz | .jc | .jnc | .print => 1

/-! ### Operands (R64 to R69, 42_control.md R130) -/

/-- The spelling of each register name (10_state.md R20, R22). -/
def RegName.spelling : RegName → Token
  | .A => ['A']
  | .B => ['B']
  | .C => ['C']
  | .D => ['D']
  | .RES => ['R', 'E', 'S']

/-- The register a token names, by exact, case-sensitive equality (R65). -/
def RegName.ofToken (tok : Token) : Option RegName :=
  (RegName.generals ++ [RegName.RES]).find? (fun r => r.spelling = tok)

/-- An ASCII decimal digit (R66). -/
def isDigit (c : Char) : Bool := decide (0x30 ≤ c.toNat ∧ c.toNat ≤ 0x39)

/-- The base-10 value of a string of digits, `acc` being the value of the digits before it. -/
def decimalValue (acc : Nat) : Token → Nat
  | [] => acc
  | c :: cs => decimalValue (acc * 10 + (c.toNat - 0x30)) cs

/-- The value of a literal: one or more ASCII digits and nothing else, unbounded (R66). -/
def literal (tok : Token) : Option Nat :=
  match tok with
  | [] => none
  | c :: cs => if (c :: cs).all isDigit then some (decimalValue 0 (c :: cs)) else none

/-- `LabelLookup(name)` (20_memory.md R44). -/
def labelLookup : LabelTable → Token → Option Nat
  | [], _ => none
  | (name, i) :: rest, tok => if name = tok then some i else labelLookup rest tok

/-- `RegOperand(tok, isDest)` (R68). -/
def regOperand (policy : ResOperandPolicy) (isDest : Bool) (tok : Token) : Except ErrorKind RegName :=
  match RegName.ofToken tok with
  | some .RES => if isDest && decide (policy = .readOnly) then .error .unknownRegister else .ok .RES
  | some r => .ok r
  | none => .error .unknownRegister

/-- `LoadSource(tok)`: a register name is tried before a literal (R69). -/
def loadSource (tok : Token) : Except ErrorKind Src :=
  match RegName.ofToken tok with
  | some r => .ok (.reg r)
  | none =>
    match literal tok with
    | some n => .ok (.imm n)
    | none => .error .unknownRegister

/-- `ResolveTarget(tok, labels, N)`: the label table is searched first; a literal must be at most N
(42_control.md R130). -/
def resolveTarget (labels : LabelTable) (n : Nat) (tok : Token) : Except ErrorKind Nat :=
  match labelLookup labels tok with
  | some i => .ok i
  | none =>
    match literal tok with
    | some t => if t ≤ n then .ok t else .error .invalidJumpTarget
    | none => .error .invalidJumpTarget

/-! ### The decoder (R72) -/

/-- Format RR: two register names, resolved left to right (R72, R74). -/
def decodeRR (policy : ResOperandPolicy) (mk : RegName → RegName → Instr) (t1 t2 : Token) :
    Except ErrorKind Instr :=
  match regOperand policy false t1 with
  | .error e => .error e
  | .ok r1 =>
    match regOperand policy false t2 with
    | .error e => .error e
    | .ok r2 => .ok (mk r1 r2)

/-- Format LD: a source, then a destination register (R72, R74). -/
def decodeLD (policy : ResOperandPolicy) (mk : Src → RegName → Instr) (t1 t2 : Token) :
    Except ErrorKind Instr :=
  match loadSource t1 with
  | .error e => .error e
  | .ok src =>
    match regOperand policy true t2 with
    | .error e => .error e
    | .ok rd => .ok (mk src rd)

/-- Format J: a target, resolved at decode whether or not the jump is taken (R72, R74, R130). -/
def decodeJ (labels : LabelTable) (n : Nat) (mk : Nat → Instr) (t1 : Token) : Except ErrorKind Instr :=
  match resolveTarget labels n t1 with
  | .error e => .error e
  | .ok t => .ok (mk t)

/-- Format R: one register name (R72, R74). -/
def decodeR (policy : ResOperandPolicy) (mk : RegName → Instr) (t1 : Token) : Except ErrorKind Instr :=
  match regOperand policy false t1 with
  | .error e => .error e
  | .ok r => .ok (mk r)

/-- The operand part of `Decode`: the count is checked before any operand is resolved (R72, R75). -/
def decodeOperands (policy : ResOperandPolicy) (labels : LabelTable) (n : Nat) :
    Opcode → List Token → Except ErrorKind Instr
  | .add, [t1, t2] => decodeRR policy .add t1 t2
  | .sub, [t1, t2] => decodeRR policy .sub t1 t2
  | .mul, [t1, t2] => decodeRR policy .mul t1 t2
  | .div, [t1, t2] => decodeRR policy .div t1 t2
  | .load, [t1, t2] => decodeLD policy .load t1 t2
  | .jmp, [t1] => decodeJ labels n .jmp t1
  | .jz, [t1] => decodeJ labels n .jz t1
  | .jnz, [t1] => decodeJ labels n .jnz t1
  | .jc, [t1] => decodeJ labels n .jc t1
  | .jnc, [t1] => decodeJ labels n .jnc t1
  | .print, [t1] => decodeR policy .print t1
  | _, _ => .error .malformedInstruction

/-- The part of `Decode` after the tokenizer (R72). -/
def decodeTokens (policy : ResOperandPolicy) (labels : LabelTable) (n : Nat) :
    List Token → Except ErrorKind Instr
  | [] => .error .malformedInstruction
  | op :: operands =>
    match Opcode.ofToken op with
    | none => .error .unknownOpcode
    | some opcode => decodeOperands policy labels n opcode operands

/-- `Decode(line, labels, N)` under a policy for RES (R72). -/
def decodeWith (policy : ResOperandPolicy) (labels : LabelTable) (n : Nat) (line : Line) :
    Except ErrorKind Instr :=
  decodeTokens policy labels n (tokens line)

/-- `Decode(line, labels, N)` as this machine has it (R72, D2). -/
def decode (labels : LabelTable) (n : Nat) (line : Line) : Except ErrorKind Instr :=
  decodeWith Config.resOperandPolicy labels n line

/-! ### The encoder (R74, R80) -/

/-- The ASCII digit of a number below ten. -/
def digitChar (d : Nat) : Char := Char.ofNat (0x30 + d)

/-- The decimal digits of a number, least significant first, `fuel` bounding their count. -/
def decimalDigitsRev : Nat → Nat → Token
  | 0, _ => []
  | fuel + 1, n => digitChar (n % 10) :: (if n / 10 = 0 then [] else decimalDigitsRev fuel (n / 10))

/-- The decimal spelling of a number, without leading zeros (R66). -/
def decimal (n : Nat) : Token := (decimalDigitsRev (n + 1) n).reverse

/-- The spelling of LOAD's source operand (R69). -/
def Src.spelling : Src → Token
  | .reg r => r.spelling
  | .imm n => decimal n

/-- The opcode of an instruction (R73). -/
def Instr.opcode : Instr → Opcode
  | .add _ _ => .add
  | .sub _ _ => .sub
  | .mul _ _ => .mul
  | .div _ _ => .div
  | .load _ _ => .load
  | .jmp _ => .jmp
  | .jz _ => .jz
  | .jnz _ => .jnz
  | .jc _ => .jc
  | .jnc _ => .jnc
  | .print _ => .print

/-- The operand tokens of an instruction, a jump's target as a literal index (R74, R80). -/
def Instr.operandTokens : Instr → List Token
  | .add r1 r2 => [r1.spelling, r2.spelling]
  | .sub r1 r2 => [r1.spelling, r2.spelling]
  | .mul r1 r2 => [r1.spelling, r2.spelling]
  | .div r1 r2 => [r1.spelling, r2.spelling]
  | .load src rd => [src.spelling, rd.spelling]
  | .jmp t => [decimal t]
  | .jz t => [decimal t]
  | .jnz t => [decimal t]
  | .jc t => [decimal t]
  | .jnc t => [decimal t]
  | .print r => [r.spelling]

/-- Tokens joined by single spaces (R80). -/
def joinTokens : List Token → Line
  | [] => []
  | [t] => t
  | t :: t' :: rest => t ++ ' ' :: joinTokens (t' :: rest)

/-- The line of an instruction: `OPCODE [operand ...]` (R80). -/
def encode (i : Instr) : Line := joinTokens (i.opcode.mnemonic :: i.operandTokens)

/-! ### Lines as words, for the host -/

/-- The low `k` bytes of a word, the least significant first. -/
def bytesOfWord : Nat → Nat → List Nat
  | 0, _ => []
  | k + 1, w => w % 256 :: bytesOfWord k (w / 256)

/-- The line whose characters are the bytes of a word, the first character in the low byte; zero
bytes after the last character are no part of the line. -/
def lineOfWord (nbits w : Nat) : Line :=
  ((bytesOfWord ((nbits + 7) / 8) w).reverse.dropWhile (fun b => b = 0)).reverse.map Char.ofNat

/-- The word of a line of characters below 256, the first character in the low byte. -/
def wordOfLine : Line → Nat
  | [] => 0
  | c :: cs => c.toNat + 256 * wordOfLine cs

/-- The number of bits of an instruction's line. -/
def Instr.bits (i : Instr) : Nat := 8 * (encode i).length

/-- The instruction the decoder reads from a line given as a word, in the context of a program that
holds this one line and declares no label. -/
def decodeTableWord (nbits w : Nat) : Option Instr :=
  match decode [] 1 (lineOfWord nbits w) with
  | .ok i => some i
  | .error _ => none

end Sys2Proof
end

