-- ==== Sys2Proof/Machine/State.lean ====
section
/-! DEFINITION. The state of one block instance (10_state.md), the session of a run in progress
(R30), and what the block hands to the host (43_print.md R151, 44_engine.md R166, R170, R180,
60_exceptions.md R202), all plain data; the reset state (R33, 70_reset_and_hazards.md R240). -/

namespace Sys2Proof.Machine

/-- `step` and `exec` never stop with a fault: a fault of this block (60_exceptions.md R200) ends
the step and the run, but leaves a state the host resumes from (R175, R203, R207), so it is a next
state that carries its record (`State.result`). This type therefore has no constructor; safe. -/
inductive Fault where
deriving DecidableEq, Repr

/-- Why the model gives an instruction no meaning. -/
inductive Refusal where
  /-- Raised by an arm of `exec` whose instruction has no meaning yet; no arm is such. Safe. -/
  | notModelled (mnemonic : String)
deriving DecidableEq, Repr

/-- The register file: four general registers and the result register (10_state.md R20, R22). -/
structure RegFile where
  a : Byte
  b : Byte
  c : Byte
  d : Byte
  res : Byte
deriving DecidableEq, Repr

/-- The fault record `Fault(kind, ctx)` (60_exceptions.md R202). -/
structure FaultRecord where
  kind : ErrorKind
  index : Nat
  opcode : Option Token
  operands : List Token
  line : Line
deriving DecidableEq, Repr

/-- What one `Step()` returns (44_engine.md R161, R180). -/
inductive StepResult where
  | ok
  | idle
  | fault (f : FaultRecord)
deriving DecidableEq, Repr

/-- How a run ended (44_engine.md R166). -/
inductive OutcomeKind where
  | halted
  | budgetExhausted
  | cancelled
  | faulted (f : FaultRecord)
deriving DecidableEq, Repr

/-- The outcome of a run: its kind and the number of completed steps (44_engine.md R166). -/
structure RunOutcome where
  kind : OutcomeKind
  steps : Nat
deriving DecidableEq, Repr

/-- The configuration record of a run (10_state.md R29). -/
structure RunConfig where
  maxSteps : Nat
  traceEnabled : Bool
  stepDelay : Nat
deriving DecidableEq, Repr

/-- The execution session of a run in progress (10_state.md R30). -/
structure Session where
  steps : Nat
  maxSteps : Nat
  traceEnabled : Bool
  stepDelay : Nat
deriving DecidableEq, Repr

/-- The trace snapshot (44_engine.md R170). -/
structure Snapshot where
  step : Nat
  maxSteps : Nat
  a : Byte
  b : Byte
  c : Byte
  d : Byte
  res : Byte
  pc : Nat
  carry : Bool
  zero : Bool
deriving DecidableEq, Repr

/-- What the host's state read returns (44_engine.md R180, D37). -/
structure StateView where
  a : Byte
  b : Byte
  c : Byte
  d : Byte
  res : Byte
  pc : Nat
  carry : Bool
  zero : Bool
deriving DecidableEq, Repr

/-- One event on an output port: the print port (43_print.md R151) or the trace port
(44_engine.md R170). -/
inductive PortEvent where
  | print (name : RegName) (value : Byte)
  | trace (snap : Snapshot)
deriving DecidableEq, Repr

/-- The reply to `LoadProgram` (70_reset_and_hazards.md R241). -/
inductive LoadReply where
  | accepted
  | refused
deriving DecidableEq, Repr

/-- The whole state. `regs` to `labels` are the architectural state of 10_state.md §1, `session` is
R30's; the last four fields are the host's side: what the block has returned and emitted, and the
counter of the host's draws. -/
structure State where
  /-- `x`: the register file (R20, R22). -/
  regs : RegFile
  /-- `carry` (R24). -/
  carry : Bool
  /-- `zero` (R25). -/
  zero : Bool
  /-- `pc`, an instruction index without a width (R27). -/
  pc : Nat
  /-- `prog`, the program store (R31). -/
  prog : List Line
  /-- `labels`, the label table (R32). -/
  labels : LabelTable
  /-- The session of the run in progress, if there is one (R30). -/
  session : Option Session
  /-- What the latest `Step()` returned, to the host or to the run loop (R161). -/
  result : Option StepResult
  /-- The outcome of the latest run, once it has ended (R166). -/
  outcome : Option RunOutcome
  /-- Every event emitted on the two output ports since Init, in order (R151, R170). -/
  outputs : List PortEvent
  /-- The model's own counter of the host's draws (R171, R172): the number of the next one. -/
  draws : Nat
deriving DecidableEq, Repr

/-- The state after `Init` (10_state.md R33, 70_reset_and_hazards.md R240). -/
def State.reset : State where
  regs := { a := 0, b := 0, c := 0, d := 0, res := 0 }
  carry := false
  zero := false
  pc := 0
  prog := []
  labels := []
  session := none
  result := none
  outcome := none
  outputs := []
  draws := 0

end Sys2Proof.Machine
end

