-- ==== Sys2Proof/Machine/Ops.lean ====
section
/-! DEFINITION. The shared operations: reading and writing registers, flags and pc, emitting on an
output port, fetching, the start of a step, and raising a fault. -/

namespace Sys2Proof.Machine

/-- `x[r]` on the register file (00_scope.md R9). -/
def RegFile.get (x : RegFile) : RegName → Byte
  | .A => x.a
  | .B => x.b
  | .C => x.c
  | .D => x.d
  | .RES => x.res

/-- `x[r] <- v` on the register file (00_scope.md R9). -/
def RegFile.set (x : RegFile) (r : RegName) (v : Byte) : RegFile :=
  match r with
  | .A => { x with a := v }
  | .B => { x with b := v }
  | .C => { x with c := v }
  | .D => { x with d := v }
  | .RES => { x with res := v }

/-- `x[r]`: the only way an instruction reads a register (R9). -/
def State.readReg (s : State) (r : RegName) : Byte := s.regs.get r

/-- `x[r] <- v`: the only way an instruction writes a register (R9). -/
def State.writeReg (s : State) (r : RegName) (v : Byte) : State := { s with regs := s.regs.set r v }

/-- `carry <- c; zero <- z` (R9). -/
def State.writeFlags (s : State) (c z : Bool) : State := { s with carry := c, zero := z }

/-- `pc <- t` (R9). -/
def State.setPc (s : State) (t : Nat) : State := { s with pc := t }

/-- One event on an output port, after those before it (43_print.md R151, 44_engine.md R170). -/
def State.emit (s : State) (e : PortEvent) : State := { s with outputs := s.outputs ++ [e] }

/-- The engine is Idle exactly when not 0 <= pc < N (44_engine.md R160). -/
def State.idle (s : State) : Bool := decide (s.prog.length ≤ s.pc)

/-- `Fetch(pc)`, none where the engine is Idle (20_memory.md R41). -/
def State.fetch (s : State) : Option Line := s.prog[s.pc]?

/-- The pc advance of a step that fetches, before decode and execute (44_engine.md R163). The step
returns `Ok` unless a fault is raised later in it (R161). -/
def State.beginStep (s : State) : State := { s with pc := s.pc + 1, result := some .ok }

/-- `ctx(i, line)` with its kind: the faulting instruction is the one before the advanced pc
(60_exceptions.md R202). -/
def State.faultRecord (s : State) (kind : ErrorKind) : FaultRecord :=
  let line := (s.prog[s.pc - 1]?).getD []
  { kind := kind
    index := s.pc - 1
    opcode := (tokens line).head?
    operands := (tokens line).tail
    line := line }

/-- `raise E(ctx)`: the one way a fault is taken. The step returns the fault record to its caller;
there is no handler, no saved register and no return from a fault, and of the step's effects only
the pc advance stands (60_exceptions.md R202, R203, R206, R207). -/
def State.raise (s : State) (kind : ErrorKind) : State :=
  { s with result := some (.fault (s.faultRecord kind)) }

/-- The numeric code of an error kind (60_exceptions.md R201). -/
def faultCode : ErrorKind → Nat
  | .unknownOpcode => 1
  | .unknownRegister => 2
  | .malformedInstruction => 3
  | .divisionByZero => 4
  | .invalidJumpTarget => 5

/-- The data of the trace snapshot, for a session whose count includes the step just done
(44_engine.md R170). -/
def State.snapshot (s : State) (ses : Session) : Snapshot where
  step := ses.steps
  maxSteps := ses.maxSteps
  a := s.readReg .A
  b := s.readReg .B
  c := s.readReg .C
  d := s.readReg .D
  res := s.readReg .RES
  pc := s.pc
  carry := s.carry
  zero := s.zero

end Sys2Proof.Machine
end

