-- ==== Sys2Proof/Machine/Flags.lean ====
section
/-! DEFINITION. The ALU as the pure function of 40_alu.md R100: a result and new flag values from an
operation, two register values and the carry, or division by zero; and the conditions of the jumps. -/

namespace Sys2Proof.Machine

/-- The raw, pre-mask result of ADD, SUB and MUL: a mathematical integer (R100, R107). -/
def rawAdd (v1 v2 : Byte) : Int := (v1.toNat : Int) + (v2.toNat : Int)

/-- The raw difference of SUB, negative when a borrow occurs (R100, R102). -/
def rawSub (v1 v2 : Byte) : Int := (v1.toNat : Int) - (v2.toNat : Int)

/-- The raw product of MUL (R100, R103). -/
def rawMul (v1 v2 : Byte) : Int := (v1.toNat : Int) * (v2.toNat : Int)

/-- A raw result as it is stored: its value mod 256 (R107). -/
def maskRaw (raw : Int) : Byte := BitVec.ofInt 8 raw

/-- A result with its carry; `zero` is set exactly when the stored result is 0 (R100, 10_state.md R25). -/
def aluOut (res : Byte) (carry : Bool) : AluOut := { res := res, carry := carry, zero := decide (res = 0) }

/-- ADD: carry is set when the raw sum exceeds 255 (R100, R101). -/
def aluAdd (v1 v2 : Byte) : AluOut := aluOut (maskRaw (rawAdd v1 v2)) (decide (rawAdd v1 v2 > 255))

/-- SUB: carry is the borrow, set when the raw difference is negative (R100, R102). -/
def aluSub (v1 v2 : Byte) : AluOut := aluOut (maskRaw (rawSub v1 v2)) (decide (rawSub v1 v2 < 0))

/-- MUL: carry is set when the raw product exceeds 255 (R100, R103). -/
def aluMul (v1 v2 : Byte) : AluOut := aluOut (maskRaw (rawMul v1 v2)) (decide (rawMul v1 v2 > 255))

/-- DIV by a divisor that is not 0: the floor quotient; carry passes through (R100, R104). -/
def aluDiv (v1 v2 : Byte) (carryIn : Bool) : AluOut := aluOut (BitVec.ofNat 8 (v1.toNat / v2.toNat)) carryIn

/-- `ALU(op, v1, v2, carryIn)`; none is `DivisionByZero` (R100). -/
def alu (op : AluOp) (v1 v2 : Byte) (carryIn : Bool) : Option AluOut :=
  match op with
  | .add => some (aluAdd v1 v2)
  | .sub => some (aluSub v1 v2)
  | .mul => some (aluMul v1 v2)
  | .div => if v2 = 0 then none else some (aluDiv v1 v2 carryIn)

/-- Whether a jump's condition holds (42_control.md R131 to R135). -/
def condHolds (cond : Cond) (s : State) : Bool :=
  match cond with
  | .always => true
  | .ifZero => s.zero
  | .ifNotZero => !s.zero
  | .ifCarry => s.carry
  | .ifNotCarry => !s.carry

end Sys2Proof.Machine
end

