-- ==== Sys2Proof/Machine/Alu.lean ====
section
/-! DEFINITION. The meanings of ADD, SUB, MUL and DIV (40_alu.md). -/

namespace Sys2Proof.Machine

/-- `ExecAlu(op, r1, r2)`: both sources are read before any write; RES, carry and zero are committed
together, or DivisionByZero is raised and nothing is (40_alu.md R105, R106). -/
def execAlu (op : AluOp) (r1 r2 : RegName) (s : State) : State :=
  match alu op (s.readReg r1) (s.readReg r2) s.carry with
  | none => s.raise .divisionByZero
  | some out => (s.writeReg .RES out.res).writeFlags out.carry out.zero

/-- ADD (R101). -/
def execAdd (r1 r2 : RegName) (s : State) : Host.Outcome State Fault Refusal := .next (execAlu .add r1 r2 s)

/-- SUB (R102). -/
def execSub (r1 r2 : RegName) (s : State) : Host.Outcome State Fault Refusal := .next (execAlu .sub r1 r2 s)

/-- MUL (R103). -/
def execMul (r1 r2 : RegName) (s : State) : Host.Outcome State Fault Refusal := .next (execAlu .mul r1 r2 s)

/-- DIV (R104, R108). -/
def execDiv (r1 r2 : RegName) (s : State) : Host.Outcome State Fault Refusal := .next (execAlu .div r1 r2 s)

end Sys2Proof.Machine
end

