-- ==== Sys2Proof/Machine/Jump.lean ====
section
/-! DEFINITION. The meanings of JMP, JZ, JNZ, JC and JNC (42_control.md). The target was resolved by
the decoder, and pc already holds the index of the next instruction. -/

namespace Sys2Proof.Machine

/-- The body of every jump: a jump that is taken overwrites pc, one that is not leaves it (42_control.md). -/
def execJump (cond : Cond) (target : Nat) (s : State) : State :=
  if condHolds cond s then s.setPc target else s

/-- JMP (R131). -/
def execJmp (target : Nat) (s : State) : Host.Outcome State Fault Refusal := .next (execJump .always target s)

/-- JZ (R132). -/
def execJz (target : Nat) (s : State) : Host.Outcome State Fault Refusal := .next (execJump .ifZero target s)

/-- JNZ (R133). -/
def execJnz (target : Nat) (s : State) : Host.Outcome State Fault Refusal := .next (execJump .ifNotZero target s)

/-- JC (R134). -/
def execJc (target : Nat) (s : State) : Host.Outcome State Fault Refusal := .next (execJump .ifCarry target s)

/-- JNC (R135). -/
def execJnc (target : Nat) (s : State) : Host.Outcome State Fault Refusal := .next (execJump .ifNotCarry target s)

end Sys2Proof.Machine
end

