-- ==== Sys2Proof/Machine/Operands.lean ====
section
/-! DEFINITION. The operand forms of the instructions, as values: a register read, and LOAD's
source (41_load.md R120). The text of an operand is resolved in Sys2Proof/Decode.lean. -/

namespace Sys2Proof.Machine

/-- A literal as it is stored in a register: its value mod 256 (30_encoding.md R66, 41_load.md R120). -/
def maskLiteral (n : Nat) : Byte := BitVec.ofNat 8 n

/-- The value LOAD copies: a register's value, or a literal mod 256 (41_load.md R120). -/
def srcValue (src : Src) (s : State) : Byte :=
  match src with
  | .reg r => s.readReg r
  | .imm n => maskLiteral n

end Sys2Proof.Machine
end

