-- ==== Sys2Proof/Machine/Load.lean ====
section
/-! DEFINITION. The meaning of LOAD (41_load.md). -/

namespace Sys2Proof.Machine

/-- LOAD: the source's value into the destination register, no flag written (R120, R121, R122). -/
def execLoad (src : Src) (rd : RegName) (s : State) : Host.Outcome State Fault Refusal :=
  .next (s.writeReg rd (srcValue src s))

end Sys2Proof.Machine
end

