-- ==== Sys2Proof/Machine/Print.lean ====
section
/-! DEFINITION. The meaning of PRINT (43_print.md). -/

namespace Sys2Proof.Machine

/-- PRINT: one event on the print port, whatever `traceEnabled` says; no state written (R150, R151). -/
def execPrint (r : RegName) (s : State) : Host.Outcome State Fault Refusal :=
  .next (s.emit (.print r (s.readReg r)))

end Sys2Proof.Machine
end

