-- ==== Sys2Proof/Machine/Dispatch.lean ====
section
/-! DEFINITION. `Execute(instr)`: one arm per instruction and no default arm (44_engine.md R164). -/

namespace Sys2Proof.Machine

def exec (i : Instr) (s : State) : Host.Outcome State Fault Refusal :=
  match i with
  -- 40_alu.md
  | .add r1 r2 => Sys2Proof.Machine.execAdd r1 r2 s
  | .sub r1 r2 => Sys2Proof.Machine.execSub r1 r2 s
  | .mul r1 r2 => Sys2Proof.Machine.execMul r1 r2 s
  | .div r1 r2 => Sys2Proof.Machine.execDiv r1 r2 s
  -- 41_load.md
  | .load src rd => Sys2Proof.Machine.execLoad src rd s
  -- 42_control.md
  | .jmp target => Sys2Proof.Machine.execJmp target s
  | .jz target => Sys2Proof.Machine.execJz target s
  | .jnz target => Sys2Proof.Machine.execJnz target s
  | .jc target => Sys2Proof.Machine.execJc target s
  | .jnc target => Sys2Proof.Machine.execJnc target s
  -- 43_print.md
  | .print r => Sys2Proof.Machine.execPrint r s

end Sys2Proof.Machine
end

