-- ==== Sys2Proof/Machine/Engine.lean ====
section
/-! DEFINITION. The execution engine: one `Step()` (44_engine.md R161 to R163), one turn of the run
loop (R165 to R172), and the storing of an instruction at pc for the host. -/

namespace Sys2Proof.Machine

/-- `Decode(line, labels, N)` with the machine's own label table and program length (30_encoding.md R70). -/
def State.decodeLine (s : State) (line : Line) : Except ErrorKind Instr := decode s.labels s.prog.length line

/-- `Step()` while the engine is Idle: nothing happens and `Idle` is returned (R162). -/
def State.idleStep (s : State) : State := { s with result := some .idle }

/-- `Step()` (R161): fetch, advance pc, decode, execute; an error of the decoder is raised. -/
def stepOnce (s : State) : Host.Outcome State Fault Refusal :=
  match s.fetch with
  | none => .next s.idleStep
  | some line =>
    match s.decodeLine line with
    | .error kind => .next (s.beginStep.raise kind)
    | .ok i => exec i s.beginStep

/-- The end of a run: its outcome goes to the host and its session ceases to exist (R166,
10_state.md R30). -/
def State.endRun (s : State) (kind : OutcomeKind) (steps : Nat) : State :=
  { s with session := none, outcome := some { kind := kind, steps := steps } }

/-- One more completed step in a session (R168). -/
def Session.count (ses : Session) : Session := { ses with steps := ses.steps + 1 }

/-- The snapshot of a completed step goes out on the trace port if `traceEnabled` is set (R170). -/
def State.trace (s : State) (ses : Session) : State :=
  if ses.traceEnabled then s.emit (.trace (s.snapshot ses)) else s

/-- The run loop after a step: a fault ends the run at once; otherwise the step is counted, the
snapshot emitted, then the observer's answer `stop` and the host's signal `cancel` are tested, in
this order (R165, R167). -/
def afterStep (stop cancel : Bool) (ses : Session) (t : State) : State :=
  match t.result with
  | some (.fault f) => t.endRun (.faulted f) ses.steps
  | _ =>
    let ses' := ses.count
    let t' := { t.trace ses' with draws := t.draws + 1 }
    if ses.traceEnabled && stop then t'.endRun .cancelled ses'.steps
    else if cancel then t'.endRun .cancelled ses'.steps
    else { t' with session := some ses' }

/-- One turn of the run loop with the host's answers for it (R165): the pc range is tested, then the
budget, then one step is made. The pacing delay has no effect (R173). -/
def runTurn (stop cancel : Bool) (ses : Session) (s : State) : Host.Outcome State Fault Refusal :=
  if s.idle then .next (s.endRun .halted ses.steps)
  else if ses.maxSteps ≤ ses.steps then .next (s.endRun .budgetExhausted ses.steps)
  else
    match stepOnce s with
    | .next t => .next (afterStep stop cancel ses t)
    | .fault f => .fault f
    | .refused r => .refused r

/-- A program store with a line stored at an index, empty lines filling it up to that index. -/
def storeLine (prog : List Line) (i : Nat) (line : Line) : List Line :=
  (prog ++ List.replicate (i + 1 - prog.length) []).set i line

/-- The state with a line stored where the next step fetches; a session with no budget left is
dropped, since its next turn would only end the run. -/
def State.placeLine (s : State) (line : Line) : State :=
  { s with
    prog := storeLine s.prog s.pc line
    session := s.session.filter (fun ses => decide (ses.steps < ses.maxSteps)) }

end Sys2Proof.Machine
end

