-- ==== Sys2Proof/Machine/Step.lean ====
section
/-! DEFINITION. The machine's step: while a run is in progress, one turn of its loop with the host's
free answers (44_engine.md R165); otherwise the host's direct `Step()` (R161, R180). -/

namespace Sys2Proof.Machine

/-- One transaction of the block. -/
def step (s : State) : Host.Outcome State Fault Refusal :=
  match s.session with
  | none => stepOnce s
  | some ses => runTurn (Config.observerStop s.draws) (Config.cancelRequested s.draws) ses s

/-- The state with an instruction, given as a word, stored where `step` fetches next. -/
def State.withFetchWord (s : State) (nbits w : Nat) : State := s.placeLine (lineOfWord nbits w)

end Sys2Proof.Machine
end

