-- ==== Sys2Proof/Machine/HostOps.lean ====
section
/-! DEFINITION. The host's operations other than `Step()`: Init, LoadProgram, Run and the state read
(44_engine.md R180). The host calls them one at a time, and none during a run (R181). -/

namespace Sys2Proof.Machine

/-- `Init`: every state element takes its initial value, whatever it was (70_reset_and_hazards.md R240). -/
def init (_ : State) : State := State.reset

/-- Every bound index lies in [0, N] (20_memory.md R44, property 2). -/
def labelsInRange (labels : LabelTable) (n : Nat) : Bool := labels.all (fun p => decide (p.2 ≤ n))

/-- Whether a program is no longer than a realisation accepts; no limit where none is given
(00_scope.md R7 `N_MAX`). -/
def withinLimit (nMax : Option Nat) (n : Nat) : Bool := nMax.all (fun m => decide (n ≤ m))

/-- `LoadProgram(prog, labels)` for a realisation with the limit `nMax`: refused with no effect, or
the program installed and pc set to 0, registers and flags kept (70_reset_and_hazards.md R241). -/
def loadProgramWithin (nMax : Option Nat) (prog : List Line) (labels : LabelTable) (s : State) :
    LoadReply × State :=
  if labelsInRange labels prog.length && withinLimit nMax prog.length then
    (.accepted, { s with prog := prog, labels := labels, pc := 0 })
  else (.refused, s)

/-- `LoadProgram(prog, labels)` as the spec's model has it: no length limit (R7, R241). -/
def loadProgram (prog : List Line) (labels : LabelTable) (s : State) : LoadReply × State :=
  loadProgramWithin Config.nMax prog labels s

/-- The configuration a run has when the host names none (10_state.md R29). -/
def defaultConfig : RunConfig where
  maxSteps := Config.maxStepsDefault
  traceEnabled := Config.traceEnabledDefault
  stepDelay := Config.stepDelayDefault

/-- The start of a run: a new session with no step counted, no outcome yet, and nothing else changed
(70_reset_and_hazards.md R242). -/
def startRun (cfg : RunConfig) (s : State) : State :=
  { s with
    session := some { steps := 0, maxSteps := cfg.maxSteps, traceEnabled := cfg.traceEnabled,
                      stepDelay := cfg.stepDelay }
    outcome := none }

/-- At most `turns` turns of the run loop, stopping when the run has ended. `stops k` and `cancels k`
are the host's answers after the k-th completed step (44_engine.md R171, R172). -/
def runTurns (stops cancels : Nat → Bool) : Nat → State → Host.Outcome State Fault Refusal
  | 0, s => .next s
  | turns + 1, s =>
    match s.session with
    | none => .next s
    | some ses =>
      match runTurn (stops (ses.steps + 1)) (cancels (ses.steps + 1)) ses s with
      | .next t => runTurns stops cancels turns t
      | .fault f => .fault f
      | .refused r => .refused r

/-- `Run(cfg)` with the host's answers (44_engine.md R165): every turn but the last completes a
step, so `maxSteps + 1` turns end it. -/
def run (cfg : RunConfig) (stops cancels : Nat → Bool) (s : State) : Host.Outcome State Fault Refusal :=
  runTurns stops cancels (cfg.maxSteps + 1) (startRun cfg s)

/-- The host's state read, which has no effect (44_engine.md R180, D37). -/
def stateRead (s : State) : StateView where
  a := s.readReg .A
  b := s.readReg .B
  c := s.readReg .C
  d := s.readReg .D
  res := s.readReg .RES
  pc := s.pc
  carry := s.carry
  zero := s.zero

/-- The events on the print port, in order (43_print.md R151). -/
def printPort (s : State) : List (RegName × Byte) :=
  s.outputs.filterMap (fun e => match e with | .print r v => some (r, v) | .trace _ => none)

/-- The snapshots on the trace port, in order (44_engine.md R170). -/
def tracePort (s : State) : List Snapshot :=
  s.outputs.filterMap (fun e => match e with | .print _ _ => none | .trace snap => some snap)

end Sys2Proof.Machine
end

