-- ==== Sys2Proof/Machine/Loader.lean ====
section
/-! DEFINITION. The program text grammar of 30_encoding.md R84 to R87: what the external loader makes
of a source text, given as its lines. The loader is outside the block; its output is what
LoadProgram receives. -/

namespace Sys2Proof.Machine

/-- A `;` and every character after it are deleted (R84). -/
def stripComment (line : Line) : Line := line.takeWhile (fun c => c ≠ ';')

/-- Trailing whitespace trimmed. -/
def trimRight (line : Line) : Line := (line.reverse.dropWhile isSpace).reverse

/-- Leading and trailing whitespace trimmed (R85). -/
def trim (line : Line) : Line := trimRight (line.dropWhile isSpace)

/-- A source line after comment removal and trimming (R84, R85). -/
def cleanLine (line : Line) : Line := trim (stripComment line)

/-- The kind of a source line (R84 to R87). -/
def classify (line : Line) : SourceLine :=
  match (cleanLine line).getLast? with
  | none => .blank
  | some c => if c = ':' then .label (trimRight (cleanLine line).dropLast) else .instr (cleanLine line)

/-- A name bound in a label table; an earlier binding of it gives way (20_memory.md R44, R86). -/
def bindLabel (labels : LabelTable) (name : Token) (i : Nat) : LabelTable :=
  (name, i) :: labels.filter (fun p => decide (p.1 ≠ name))

/-- The loader at work on the lines still to come, after `prog` and `labels`: a label is bound to
the number of instruction lines emitted so far (R86, R87). -/
def loadLines (prog : List Line) (labels : LabelTable) : List Line → List Line × LabelTable
  | [] => (prog, labels)
  | src :: rest =>
    match classify src with
    | .blank => loadLines prog labels rest
    | .label name => loadLines prog (bindLabel labels name prog.length) rest
    | .instr line => loadLines (prog ++ [line]) labels rest

/-- The loader's output for a source text: the program store and the label table (R87). -/
def loadSourceText (src : List Line) : List Line × LabelTable := loadLines [] [] src

end Sys2Proof.Machine
end

