-- ==== Sys2Proof/Safety.lean ====
section
/-! DEFINITION. What the statements are phrased in: the invariant of the machine, the frame
predicates (what is left as it was), which instruction a state is about to run, and how the lines of
each format decode. -/

namespace Sys2Proof.Machine

/-- A label table as the block assumes it: no name bound twice, every index in [0, N] (20_memory.md R44). -/
def LabelsOk (labels : LabelTable) (n : Nat) : Prop :=
  (labels.map Prod.fst).Nodup ∧ ∀ p ∈ labels, p.2 ≤ n

/-- A session that is within its budget, while no outcome has been delivered (44_engine.md R169). -/
def SessionOk (s : State) : Prop :=
  ∀ ses ∈ s.session, ses.steps ≤ ses.maxSteps ∧ s.outcome = none

/-- The invariant of the machine: pc lies in [0, N] (10_state.md R27), the label table is as R44 has
it, and the session is within its budget. -/
def State.Inv (s : State) : Prop :=
  s.pc ≤ s.prog.length ∧ LabelsOk s.labels s.prog.length ∧ SessionOk s

/-- Every register but `d` reads as before. -/
def SameRegsExcept (d : RegName) (s t : State) : Prop := ∀ r, r ≠ d → t.readReg r = s.readReg r

/-- Every register reads as before. -/
def SameRegs (s t : State) : Prop := ∀ r, t.readReg r = s.readReg r

/-- Both flags are as before. -/
def SameFlags (s t : State) : Prop := t.carry = s.carry ∧ t.zero = s.zero

/-- The program store and the label table are as before. -/
def SameStores (s t : State) : Prop := t.prog = s.prog ∧ t.labels = s.labels

/-- The session, the run outcome and the draw counter are as before. -/
def SameRun (s t : State) : Prop := t.session = s.session ∧ t.outcome = s.outcome ∧ t.draws = s.draws

/-- The step result and the output ports are as before. -/
def SamePorts (s t : State) : Prop := t.result = s.result ∧ t.outputs = s.outputs

/-- The two states have the same architectural state: registers, flags, pc, program store and label
table (10_state.md §1). -/
def SameArch (s t : State) : Prop := SameRegs s t ∧ SameFlags s t ∧ t.pc = s.pc ∧ SameStores s t

/-- What the next `Step()` decodes: none where the engine is Idle (44_engine.md R160, R161). -/
def State.current (s : State) : Option (Except ErrorKind Instr) :=
  match s.fetch with
  | none => none
  | some line => some (s.decodeLine line)

/-- The engine makes a `Step()` in the next step of the machine: it does so directly when no run is
in progress, and in a run when neither pc nor the budget ends it first (44_engine.md R165). -/
def State.willStep (s : State) : Prop :=
  s.idle = false ∧ ∀ ses ∈ s.session, ses.steps < ses.maxSteps

/-- `n` completed steps, each a `Step()` that returns `Ok`, lead from `s` to `u` (44_engine.md R161, R168). -/
def CompletedSteps : Nat → State → State → Prop
  | 0, s, u => u = s
  | n + 1, s, u => ∃ v, stepOnce s = .next v ∧ v.result = some .ok ∧ CompletedSteps n v u

/-- The host asks a run to end after its k-th completed step: through the observer of a traced run,
or by cancellation (44_engine.md R171, R172). -/
def AsksToEnd (cfg : RunConfig) (stops cancels : Nat → Bool) (k : Nat) : Prop :=
  (cfg.traceEnabled = true ∧ stops k = true) ∨ cancels k = true

/-- The host's answers `f` for a run that continues another after its n-th completed step, given as
answers for the two as one run: none before that step or at it. -/
def answersAfter (n : Nat) (f : Nat → Bool) (k : Nat) : Bool := decide (n < k) && f (k - n)

/-- The registers, pc and flags in a snapshot are those of a state (44_engine.md R170). -/
def Snapshot.Shows (snap : Snapshot) (u : State) : Prop :=
  snap.a = u.readReg .A ∧ snap.b = u.readReg .B ∧ snap.c = u.readReg .C ∧ snap.d = u.readReg .D ∧
  snap.res = u.readReg .RES ∧ snap.pc = u.pc ∧ snap.carry = u.carry ∧ snap.zero = u.zero

/-- The target of a jump (30_encoding.md R71). -/
def target : Instr → Option Nat
  | .jmp t => some t
  | .jz t => some t
  | .jnz t => some t
  | .jc t => some t
  | .jnc t => some t
  | .add _ _ => none
  | .sub _ _ => none
  | .mul _ _ => none
  | .div _ _ => none
  | .load _ _ => none
  | .print _ => none

/-- The instruction line a source line gives the program store, if it is one (R87). -/
def instrLine (src : Line) : Option Line :=
  match classify src with
  | .instr line => some line
  | .blank => none
  | .label _ => none

/-! ### How the lines of each format decode (30_encoding.md R74, R75)

A surplus operand counts as a wrong operand count, and the count is checked before the operands: the
spec's decisions D10, D11. -/

/-- A token that is no register name (R65). -/
def NoRegister (tok : Token) : Prop := ∀ r : RegName, tok ≠ r.spelling

/-- Format RR: two register names, or `MalformedInstruction` for another count, or `UnknownRegister`
for an operand that is no register name (R68). -/
def DecodesRR (op : Token) (mk : RegName → RegName → Instr) : Prop :=
  ∀ policy labels n line operands, tokens line = op :: operands →
    (operands.length ≠ 2 → decodeWith policy labels n line = .error .malformedInstruction) ∧
    (∀ r1 r2 : RegName, operands = [r1.spelling, r2.spelling] →
      decodeWith policy labels n line = .ok (mk r1 r2)) ∧
    (∀ t1 t2, operands = [t1, t2] → NoRegister t1 ∨ NoRegister t2 →
      decodeWith policy labels n line = .error .unknownRegister)

/-- Format LD: a register name or a literal, then a destination register (not RES under `readOnly`),
or `MalformedInstruction` for another count, or `UnknownRegister` for another operand (R69; the
spec's decisions D2, D6, D7). -/
def DecodesLD (op : Token) (mk : Src → RegName → Instr) : Prop :=
  ∀ policy labels n line operands, tokens line = op :: operands →
    (operands.length ≠ 2 → decodeWith policy labels n line = .error .malformedInstruction) ∧
    (∀ rs rd : RegName, operands = [rs.spelling, rd.spelling] → policy = .everywhere ∨ rd ≠ .RES →
      decodeWith policy labels n line = .ok (mk (.reg rs) rd)) ∧
    (∀ t1 k, ∀ rd : RegName, operands = [t1, rd.spelling] → literal t1 = some k →
      policy = .everywhere ∨ rd ≠ .RES → decodeWith policy labels n line = .ok (mk (.imm k) rd)) ∧
    (∀ t1 t2, operands = [t1, t2] →
      (NoRegister t1 ∧ literal t1 = none) ∨ NoRegister t2 ∨
        (t2 = RegName.spelling .RES ∧ policy = .readOnly) →
      decodeWith policy labels n line = .error .unknownRegister)

/-- Format J: a target that resolves (42_control.md R130), or `MalformedInstruction` for another
count, or the error of a target that does not resolve, whether or not the jump would be taken (the
spec's decisions D8, D9, D34). -/
def DecodesJ (op : Token) (mk : Nat → Instr) : Prop :=
  ∀ policy labels n line operands, tokens line = op :: operands →
    (operands.length ≠ 1 → decodeWith policy labels n line = .error .malformedInstruction) ∧
    (∀ t1 k, operands = [t1] → resolveTarget labels n t1 = .ok k →
      decodeWith policy labels n line = .ok (mk k)) ∧
    (∀ t1 e, operands = [t1] → resolveTarget labels n t1 = .error e →
      e = .invalidJumpTarget ∧ decodeWith policy labels n line = .error .invalidJumpTarget)

/-- Format R: one register name, or `MalformedInstruction` for another count, or `UnknownRegister`
for an operand that is no register name. -/
def DecodesR (op : Token) (mk : RegName → Instr) : Prop :=
  ∀ policy labels n line operands, tokens line = op :: operands →
    (operands.length ≠ 1 → decodeWith policy labels n line = .error .malformedInstruction) ∧
    (∀ r : RegName, operands = [r.spelling] → decodeWith policy labels n line = .ok (mk r)) ∧
    (∀ t1, operands = [t1] → NoRegister t1 → decodeWith policy labels n line = .error .unknownRegister)

end Sys2Proof.Machine
end

