-- ==== Sys2Proof/Certificates/Slice0/Obligations.lean ====
section
/-! DEFINITION. The statements about the machine, for the provers. -/

open Sys2Proof Sys2Proof.Machine

/-! ### The instructions -/

/-- 40_alu.md R101: "ADD: result = (v1 + v2) mod 256; carry = (v1 + v2) > 255; zero = (result == 0)."
Its lines decode as format RR has it; its execution completes in every state and leaves all else. -/
def Obligations.AddPutsTheSumInResAndSetsBothFlags : Prop :=
  DecodesRR ['A', 'D', 'D'] .add ∧
  ∀ (r1 r2 : RegName) (s : State), ∃ t, exec (.add r1 r2) s = .next t ∧
    (t.readReg .RES).toNat = ((s.readReg r1).toNat + (s.readReg r2).toNat) % 256 ∧
    t.carry = decide (255 < (s.readReg r1).toNat + (s.readReg r2).toNat) ∧
    t.zero = decide (((s.readReg r1).toNat + (s.readReg r2).toNat) % 256 = 0) ∧
    SameRegsExcept .RES s t ∧ t.pc = s.pc ∧ SameStores s t ∧ SameRun s t ∧ SamePorts s t

/-- 40_alu.md R102: the difference mod 256, carry as the borrow, "SUB's carry is true iff v1 < v2". -/
def Obligations.SubPutsTheDifferenceInResAndBorrowInCarry : Prop :=
  DecodesRR ['S', 'U', 'B'] .sub ∧
  ∀ (r1 r2 : RegName) (s : State), ∃ t, exec (.sub r1 r2) s = .next t ∧
    ((t.readReg .RES).toNat : Int) = (((s.readReg r1).toNat : Int) - (s.readReg r2).toNat) % 256 ∧
    t.carry = decide ((s.readReg r1).toNat < (s.readReg r2).toNat) ∧
    t.zero = decide ((s.readReg r1).toNat = (s.readReg r2).toNat) ∧
    SameRegsExcept .RES s t ∧ t.pc = s.pc ∧ SameStores s t ∧ SameRun s t ∧ SamePorts s t

/-- 40_alu.md R103: the low 8 bits of the product, carry when it exceeds 255. -/
def Obligations.MulPutsTheLowByteInResAndOverflowInCarry : Prop :=
  DecodesRR ['M', 'U', 'L'] .mul ∧
  ∀ (r1 r2 : RegName) (s : State), ∃ t, exec (.mul r1 r2) s = .next t ∧
    (t.readReg .RES).toNat = ((s.readReg r1).toNat * (s.readReg r2).toNat) % 256 ∧
    t.carry = decide (255 < (s.readReg r1).toNat * (s.readReg r2).toNat) ∧
    t.zero = decide (((s.readReg r1).toNat * (s.readReg r2).toNat) % 256 = 0) ∧
    SameRegsExcept .RES s t ∧ t.pc = s.pc ∧ SameStores s t ∧ SameRun s t ∧ SamePorts s t

/-- 40_alu.md R104: the floor quotient with carry unchanged, or `DivisionByZero`, whose record names
the operands of the line before pc, with nothing else changed. -/
def Obligations.DivPutsTheQuotientInResAndKeepsCarry : Prop :=
  DecodesRR ['D', 'I', 'V'] .div ∧
  ∀ (r1 r2 : RegName) (s : State),
    ((s.readReg r2).toNat ≠ 0 → ∃ t, exec (.div r1 r2) s = .next t ∧
      (t.readReg .RES).toNat = (s.readReg r1).toNat / (s.readReg r2).toNat ∧
      t.carry = s.carry ∧
      t.zero = decide ((s.readReg r1).toNat / (s.readReg r2).toNat = 0) ∧
      SameRegsExcept .RES s t ∧ t.pc = s.pc ∧ SameStores s t ∧ SameRun s t ∧ SamePorts s t) ∧
    ((s.readReg r2).toNat = 0 → ∃ f, exec (.div r1 r2) s = .next { s with result := some (.fault f) } ∧
      f.kind = .divisionByZero ∧
      ∀ line, s.prog[s.pc - 1]? = some line → f.operands = (tokens line).tail)

/-- 41_load.md R120, R121: the destination register takes the literal mod 256 or the source
register's value; no flag, no other register and nothing else is written. -/
def Obligations.LoadWritesOneRegisterAndNoFlag : Prop :=
  DecodesLD ['L', 'O', 'A', 'D'] .load ∧
  ∀ (src : Src) (rd : RegName) (s : State), ∃ t, exec (.load src rd) s = .next t ∧
    (∀ n, src = .imm n → (t.readReg rd).toNat = n % 256) ∧
    (∀ r, src = .reg r → t.readReg rd = s.readReg r) ∧
    SameRegsExcept rd s t ∧ SameFlags s t ∧ t.pc = s.pc ∧ SameStores s t ∧ SameRun s t ∧ SamePorts s t

/-- 42_control.md R131: JMP always sets pc to its target and changes nothing else. -/
def Obligations.JmpAlwaysSetsPcToItsTarget : Prop :=
  DecodesJ ['J', 'M', 'P'] .jmp ∧
  ∀ (target : Nat) (s : State), ∃ t, exec (.jmp target) s = .next t ∧ t.pc = target ∧
    SameRegs s t ∧ SameFlags s t ∧ SameStores s t ∧ SameRun s t ∧ SamePorts s t

/-- 42_control.md R132 to R135: each conditional jump sets pc to its target exactly when its flag is
as it asks, leaves pc otherwise, and changes nothing else. -/
def Obligations.ConditionalJumpsSetPcWhenTheirFlagMatches : Prop :=
  (DecodesJ ['J', 'Z'] .jz ∧ DecodesJ ['J', 'N', 'Z'] .jnz ∧
    DecodesJ ['J', 'C'] .jc ∧ DecodesJ ['J', 'N', 'C'] .jnc) ∧
  ∀ (target : Nat) (s : State),
    (∃ t, exec (.jz target) s = .next t ∧ t.pc = (if s.zero = true then target else s.pc) ∧
      SameRegs s t ∧ SameFlags s t ∧ SameStores s t ∧ SameRun s t ∧ SamePorts s t) ∧
    (∃ t, exec (.jnz target) s = .next t ∧ t.pc = (if s.zero = true then s.pc else target) ∧
      SameRegs s t ∧ SameFlags s t ∧ SameStores s t ∧ SameRun s t ∧ SamePorts s t) ∧
    (∃ t, exec (.jc target) s = .next t ∧ t.pc = (if s.carry = true then target else s.pc) ∧
      SameRegs s t ∧ SameFlags s t ∧ SameStores s t ∧ SameRun s t ∧ SamePorts s t) ∧
    (∃ t, exec (.jnc target) s = .next t ∧ t.pc = (if s.carry = true then s.pc else target) ∧
      SameRegs s t ∧ SameFlags s t ∧ SameStores s t ∧ SameRun s t ∧ SamePorts s t)

/-- 43_print.md R150: PRINT emits its register's name and value and mutates no state; one whose line
is in error emits nothing. -/
def Obligations.PrintEmitsOneEventAndMutatesNothing : Prop :=
  DecodesR ['P', 'R', 'I', 'N', 'T'] .print ∧
  (∀ (r : RegName) (s : State), ∃ t, exec (.print r) s = .next t ∧
    t.outputs = s.outputs ++ [.print r (s.readReg r)] ∧
    SameRegs s t ∧ SameFlags s t ∧ t.pc = s.pc ∧ SameStores s t ∧ SameRun s t ∧ t.result = s.result) ∧
  (∀ (s t : State) (line : Line) (operands : List Token) (e : ErrorKind), s.fetch = some line →
    tokens line = ['P', 'R', 'I', 'N', 'T'] :: operands → s.decodeLine line = .error e →
    stepOnce s = .next t → t.outputs = s.outputs)

/-! ### The step -/

/-- 44_engine.md R161: a line that decodes to `i` is run as `i` with pc already advanced; in a run the
loop then does what `afterStep` says with the host's answers. -/
def Obligations.StepRunsTheDecodedInstruction : Prop :=
  ∀ (s : State) (line : Line) (i : Instr), s.fetch = some line → s.decodeLine line = .ok i →
    (s.session = none → step s = exec i { s with pc := s.pc + 1, result := some .ok }) ∧
    (∀ ses, s.session = some ses → ses.steps < ses.maxSteps →
      ∃ u, exec i { s with pc := s.pc + 1, result := some .ok } = .next u ∧
        step s = .next (afterStep (Config.observerStop s.draws) (Config.cancelRequested s.draws) ses u))

/-- The model's choice (assumption log 1): a fault of the block is a next state that carries its
record, so the machine answers a next state from every state. -/
def Obligations.EveryStepAnswersANextState : Prop :=
  ∀ s : State, ∃ t, step s = .next t

/-- 44_engine.md R162 (the spec's decision D21): a direct step while Idle reports `Idle` and does
nothing else. -/
def Obligations.DirectStepWhileIdleDoesNothing : Prop :=
  ∀ s : State, s.session = none → s.prog.length ≤ s.pc → step s = .next { s with result := some .idle }

/-- 30_encoding.md R75, R76 and 60_exceptions.md R204 (the spec's decisions D10, D11): the first check
that fails decides the error, and executing the line raises it with only the pc advance committed. -/
def Obligations.IllegalLinesRaiseTheFirstFailingCheck : Prop :=
  ∀ (s : State) (line : Line), s.fetch = some line → s.session = none →
    (tokens line = [] → s.decodeLine line = .error .malformedInstruction) ∧
    (∀ op operands, tokens line = op :: operands → (∀ o : Opcode, op ≠ o.mnemonic) →
      s.decodeLine line = .error .unknownOpcode) ∧
    (∀ (o : Opcode) operands, tokens line = o.mnemonic :: operands → operands.length ≠ o.arity →
      s.decodeLine line = .error .malformedInstruction) ∧
    (∀ e, s.decodeLine line = .error e →
      ∃ f, f.kind = e ∧ step s = .next { s with pc := s.pc + 1, result := some (.fault f) })

/-- 60_exceptions.md R203: "A faulting step commits exactly one effect, `pc <- index + 1`." -/
def Obligations.FaultingStepCommitsOnlyThePcAdvance : Prop :=
  ∀ (s t : State) (f : FaultRecord), stepOnce s = .next t → t.result = some (.fault f) → s.idle = false →
    t = { s with pc := f.index + 1, result := some (.fault f) } ∧ f.index = s.pc

/-- 60_exceptions.md R201, R202 (the spec's decisions D15, D16): the record holds the faulting index,
the line and its tokens, and its kind is the decoder's error or DIV's zero divisor. -/
def Obligations.FaultRecordDescribesTheFaultingLine : Prop :=
  ∀ (s t : State) (line : Line) (f : FaultRecord),
    s.fetch = some line → stepOnce s = .next t → t.result = some (.fault f) →
    f.index = s.pc ∧ f.line = line ∧ f.opcode = (tokens line).head? ∧ f.operands = (tokens line).tail ∧
    (s.decodeLine line = .error f.kind ∨
      (f.kind = .divisionByZero ∧
        ∃ r1 r2, s.decodeLine line = .ok (.div r1 r2) ∧ (s.readReg r2).toNat = 0))

/-- 44_engine.md R163: pc after a step is the index after the fetched line, or the target of a jump
that was taken; with a fault it is the index after the line. -/
def Obligations.PcAfterAStepIsTheNextIndexOrATakenTarget : Prop :=
  ∀ s t : State, step s = .next t → s.willStep →
    t.pc = match s.current with
      | some (.ok (.jmp k)) => k
      | some (.ok (.jz k)) => if s.zero = true then k else s.pc + 1
      | some (.ok (.jnz k)) => if s.zero = true then s.pc + 1 else k
      | some (.ok (.jc k)) => if s.carry = true then k else s.pc + 1
      | some (.ok (.jnc k)) => if s.carry = true then s.pc + 1 else k
      | _ => s.pc + 1

/-- 10_state.md R24, 40_alu.md R109: carry is written by ADD, SUB and MUL only, and is then true
exactly when the raw result lies outside [0, 255]. -/
def Obligations.CarryIsWrittenByAddSubAndMulOnly : Prop :=
  ∀ s t : State, step s = .next t →
    (¬ s.willStep → t.carry = s.carry) ∧
    (s.willStep → t.carry = match s.current with
      | some (.ok (.add r1 r2)) => decide (255 < (s.readReg r1).toNat + (s.readReg r2).toNat)
      | some (.ok (.sub r1 r2)) => decide ((s.readReg r1).toNat < (s.readReg r2).toNat)
      | some (.ok (.mul r1 r2)) => decide (255 < (s.readReg r1).toNat * (s.readReg r2).toNat)
      | _ => s.carry)

/-- 10_state.md R25: zero is written by every ALU operation that succeeds, from the value it writes
to RES, and by nothing else. -/
def Obligations.ZeroIsWrittenByEverySuccessfulAluOperationOnly : Prop :=
  ∀ s t : State, step s = .next t →
    (∀ r1 r2, s.willStep →
      (s.current = some (.ok (.add r1 r2)) ∨ s.current = some (.ok (.sub r1 r2)) ∨
        s.current = some (.ok (.mul r1 r2)) ∨
        (s.current = some (.ok (.div r1 r2)) ∧ (s.readReg r2).toNat ≠ 0)) →
      t.zero = decide ((t.readReg .RES).toNat = 0)) ∧
    (t.zero ≠ s.zero → s.willStep ∧ ∃ r1 r2,
      s.current = some (.ok (.add r1 r2)) ∨ s.current = some (.ok (.sub r1 r2)) ∨
        s.current = some (.ok (.mul r1 r2)) ∨
        (s.current = some (.ok (.div r1 r2)) ∧ (s.readReg r2).toNat ≠ 0))

/-- 10_state.md R23, 40_alu.md R105: the register file is "mutated only by ALU and load operations",
an ALU operation writing RES alone and LOAD its destination alone. -/
def Obligations.RegistersChangeOnlyByAluInResOrByLoad : Prop :=
  ∀ (s t : State) (r : RegName), step s = .next t → t.readReg r ≠ s.readReg r →
    s.willStep ∧
    ((∃ src, s.current = some (.ok (.load src r))) ∨
      (r = .RES ∧ ∃ r1 r2,
        s.current = some (.ok (.add r1 r2)) ∨ s.current = some (.ok (.sub r1 r2)) ∨
          s.current = some (.ok (.mul r1 r2)) ∨
          (s.current = some (.ok (.div r1 r2)) ∧ (s.readReg r2).toNat ≠ 0)))

/-- 20_memory.md R42: no step writes the program store or the label table; a program load that is
accepted replaces both as a whole and sets pc to 0. -/
def Obligations.OnlyProgramLoadReplacesTheStores : Prop :=
  (∀ s t : State, step s = .next t → SameStores s t) ∧
  (∀ (prog : List Line) (labels : LabelTable) (s : State), (loadProgram prog labels s).1 = .accepted →
    (loadProgram prog labels s).2.prog = prog ∧ (loadProgram prog labels s).2.labels = labels ∧
      (loadProgram prog labels s).2.pc = 0)

/-- 43_print.md R151 (the spec's decision D20): the print port gains one event for a PRINT that
executes, traced or not, and nothing otherwise. -/
def Obligations.PrintPortGainsOneEventPerExecutedPrint : Prop :=
  ∀ s t : State, step s = .next t →
    (∀ r, s.willStep → s.current = some (.ok (.print r)) →
      printPort t = printPort s ++ [(r, s.readReg r)]) ∧
    ((¬ s.willStep ∨ ∀ r, s.current ≠ some (.ok (.print r))) → printPort t = printPort s)

/-- 10_state.md R30, 44_engine.md R171: a step's effect on the architectural state depends on nothing
but the architectural state: not on the session, the host's answers or what was emitted before. -/
def Obligations.MachineStateIsIndependentOfTheHostSide : Prop :=
  ∀ s s' t t' : State, SameArch s s' → s.willStep → s'.willStep →
    step s = .next t → step s' = .next t' → SameArch t t'

/-! ### Invariants, reset, program load -/

/-- The reset state meets the machine's invariant. -/
def Obligations.ResetMeetsTheInvariant : Prop := State.reset.Inv

/-- 10_state.md R27, 20_memory.md R44, 44_engine.md R169: pc stays in [0, N], the label table stays
as it must be, and a session stays within its budget, from every state that meets this. -/
def Obligations.EveryStepKeepsTheInvariant : Prop :=
  ∀ s t : State, s.Inv → step s = .next t → t.Inv

/-- The host's operations keep the invariant: Init, a program load with labels bound once each, the
start of a run, and every turn of a run and every whole run, whatever the host answers. -/
def Obligations.HostOperationsKeepTheInvariant : Prop :=
  (∀ s : State, (init s).Inv) ∧
  (∀ (prog : List Line) (labels : LabelTable) (s : State), s.Inv → (labels.map Prod.fst).Nodup →
    (loadProgram prog labels s).2.Inv) ∧
  (∀ (cfg : RunConfig) (s : State), s.Inv → (startRun cfg s).Inv) ∧
  (∀ (stop cancel : Bool) (ses : Session) (s t : State), s.Inv → s.session = some ses →
    runTurn stop cancel ses s = .next t → t.Inv) ∧
  (∀ (cfg : RunConfig) (stops cancels : Nat → Bool) (s t : State), s.Inv →
    run cfg stops cancels s = .next t → t.Inv)

/-- 70_reset_and_hazards.md R240, 10_state.md R33 (the flags: the spec's decision D12; pc and the
empty program: D33): what Init leaves, whatever the state before. -/
def Obligations.InitLeavesTheResetValues : Prop :=
  ∀ s : State, (∀ r, ((init s).readReg r).toNat = 0) ∧ (init s).carry = false ∧ (init s).zero = false ∧
    (init s).pc = 0 ∧ (init s).prog = [] ∧ (init s).labels = [] ∧ (init s).session = none ∧
    (init s).idle = true ∧ init s = State.reset

/-- 70_reset_and_hazards.md R241 (the spec's decisions D13, D14): a table with an index above N is
refused with no effect; otherwise the program is installed, pc is 0 and all else is kept. -/
def Obligations.LoadProgramInstallsOrRefuses : Prop :=
  ∀ (prog : List Line) (labels : LabelTable) (s : State),
    ((∃ name i, labelLookup labels name = some i ∧ prog.length < i) →
      loadProgram prog labels s = (.refused, s)) ∧
    ((∀ p ∈ labels, p.2 ≤ prog.length) →
      loadProgram prog labels s = (.accepted, { s with prog := prog, labels := labels, pc := 0 }))

/-! ### Decoding -/

/-- 30_encoding.md R72, R74, R80: the line an instruction is encoded as decodes to it, every operand
at every value, unless the label table binds the literal's spelling to another index. -/
def Obligations.DecodeOfEncodeIsTheInstruction : Prop :=
  ∀ (policy : ResOperandPolicy) (labels : LabelTable) (n : Nat) (i : Instr),
    i.wellFormed policy n = true →
    (∀ k, target i = some k → labelLookup labels (decimal k) = none ∨ labelLookup labels (decimal k) = some k) →
    decodeWith policy labels n (encode i) = .ok i

/-- 30_encoding.md R71: what the decoder gives is well-formed; a jump's target lies in [0, N]. -/
def Obligations.DecodedInstructionsAreWellFormed : Prop :=
  ∀ (policy : ResOperandPolicy) (labels : LabelTable) (n : Nat) (line : Line) (i : Instr),
    (∀ p ∈ labels, p.2 ≤ n) → decodeWith policy labels n line = .ok i → i.wellFormed policy n = true

/-- 95_test_vectors.md §2.6 and §2.8: lines of each family, written out, and what they decode to. -/
def Obligations.SampleLinesDecodeAsTheSpecWritesThem : Prop :=
  decode [] 6 "ADD  A\tB  ".toList = .ok (.add .A .B) ∧
  decode [] 6 "SUB RES C".toList = .ok (.sub .RES .C) ∧
  decode [] 6 "LOAD 0255 A".toList = .ok (.load (.imm 255) .A) ∧
  decode [] 6 "LOAD RES D".toList = .ok (.load (.reg .RES) .D) ∧
  decode [("3".toList, 5)] 6 "JMP 3".toList = .ok (.jmp 5) ∧
  decode [] 6 "JNC 6".toList = .ok (.jnc 6) ∧
  decode [] 6 "JMP 7".toList = .error .invalidJumpTarget ∧
  decode [] 6 "PRINT RES".toList = .ok (.print .RES) ∧
  decode [] 6 "add A B".toList = .error .unknownOpcode

/-- 30_encoding.md R61 (the whitespace set: the spec's decision D4): the tokens are the maximal runs
of non-whitespace, and every line is a sequence of such runs and gaps. -/
def Obligations.TokensAreTheMaximalRuns : Prop :=
  (∀ c : Char, isSpace c = true ↔ c ∈ [' ', '\t', '\n', '\x0b', '\x0c', '\r']) ∧
  (∀ (lead : Line) (parts : List (Token × Line)), lead.all isSpace = true →
    (∀ p ∈ parts, p.1 ≠ [] ∧ (∀ c ∈ p.1, isSpace c = false) ∧ p.2.all isSpace = true) →
    (∀ p ∈ parts.dropLast, p.2 ≠ []) →
    tokens (lead ++ (parts.map (fun p => p.1 ++ p.2)).flatten) = parts.map Prod.fst) ∧
  (∀ line : Line, ∃ (lead : Line) (parts : List (Token × Line)), lead.all isSpace = true ∧
    (∀ p ∈ parts, p.1 ≠ [] ∧ (∀ c ∈ p.1, isSpace c = false) ∧ p.2.all isSpace = true) ∧
    (∀ p ∈ parts.dropLast, p.2 ≠ []) ∧ line = lead ++ (parts.map (fun p => p.1 ++ p.2)).flatten)

/-- 30_encoding.md R62: the opcode token selects the instruction by exact equality with a mnemonic. -/
def Obligations.OpcodeTokenSelectsByExactEquality : Prop :=
  ∀ (policy : ResOperandPolicy) (labels : LabelTable) (n : Nat) (line : Line) (op : Token)
    (operands : List Token), tokens line = op :: operands →
    ((∀ o : Opcode, op ≠ o.mnemonic) ↔ decodeWith policy labels n line = .error .unknownOpcode) ∧
    (∀ i, decodeWith policy labels n line = .ok i → op = i.opcode.mnemonic)

/-- 30_encoding.md R66 (the spec's decision D5): a literal is one or more ASCII digits and nothing
else, read in base 10, leading zeros allowed. -/
def Obligations.LiteralsAreUnsignedDecimal : Prop :=
  (∀ tok : Token, (∃ k, literal tok = some k) ↔ tok ≠ [] ∧ ∀ c ∈ tok, '0'.toNat ≤ c.toNat ∧ c.toNat ≤ '9'.toNat) ∧
  (∀ (tok : Token) (c : Char) (k : Nat), literal tok = some k → isDigit c = true →
    literal (tok ++ [c]) = some (10 * k + (c.toNat - '0'.toNat))) ∧
  (∀ c : Char, isDigit c = true → literal [c] = some (c.toNat - '0'.toNat)) ∧
  (∀ k : Nat, literal (decimal k) = some k ∧ literal ('0' :: decimal k) = some k)

/-- 42_control.md R130 (the spec's decisions D8, D9, D34): the label table is searched first, a
literal must be at most N, and a jump whose target does not resolve faults whatever the flags are. -/
def Obligations.JumpTargetsResolveLabelsFirstAndFaultOtherwise : Prop :=
  ∀ (labels : LabelTable) (n : Nat) (tok : Token),
    (∀ i, labelLookup labels tok = some i → resolveTarget labels n tok = .ok i) ∧
    (∀ k, labelLookup labels tok = none → literal tok = some k → k ≤ n → resolveTarget labels n tok = .ok k) ∧
    (∀ k, labelLookup labels tok = none → literal tok = some k → n < k →
      resolveTarget labels n tok = .error .invalidJumpTarget) ∧
    (labelLookup labels tok = none → literal tok = none → resolveTarget labels n tok = .error .invalidJumpTarget) ∧
    (∀ (s : State) (line : Line) (o : Opcode), o ∈ [Opcode.jmp, .jz, .jnz, .jc, .jnc] →
      s.fetch = some line → tokens line = [o.mnemonic, tok] → s.labels = labels → s.prog.length = n →
      resolveTarget labels n tok = .error .invalidJumpTarget →
      ∃ f, f.kind = .invalidJumpTarget ∧
        stepOnce s = .next { s with pc := s.pc + 1, result := some (.fault f) })

/-! ### The loader's grammar -/

/-- 30_encoding.md R84, R85 (the whitespace set: the spec's decision D4): a comment and the whitespace
around a line are removed and make no difference, and a line with nothing else is ignored. -/
def Obligations.CommentsAndSurroundingBlanksAreIgnored : Prop :=
  (∀ a b : Line, cleanLine (a ++ ';' :: b) = cleanLine a ∧ classify (a ++ ';' :: b) = classify a) ∧
  (∀ a w w' : Line, ';' ∉ a → w.all isSpace = true → w'.all isSpace = true →
    (∀ c, a.head? = some c → isSpace c = false) → (∀ c, a.getLast? = some c → isSpace c = false) →
    cleanLine (w ++ a ++ w') = a) ∧
  (∀ a w w' : Line, ';' ∉ a → w.all isSpace = true → w'.all isSpace = true →
    classify (w ++ a ++ w') = classify a) ∧
  (∀ w : Line, w.all isSpace = true → classify w = .blank)

/-- 30_encoding.md R87: the instruction lines are the program store, in source order, each with its
text as comment removal and trimming leave it. -/
def Obligations.LoaderEmitsTheInstructionLinesInOrder : Prop :=
  (∀ src : List Line, (loadSourceText src).1 = src.filterMap instrLine) ∧
  (∀ src line : Line, instrLine src = some line ↔
    line = cleanLine src ∧ line ≠ [] ∧ line.getLast? ≠ some ':')

/-- 30_encoding.md R86 (the name and duplicates: the spec's decision D14): a line that ends in `:` after
comment removal and trimming, and no other, declares a label, its name the line without that `:` and
the whitespace before it; a label is bound to the number of instruction lines before its last
declaration, and a name never declared is not bound. -/
def Obligations.LabelsAreBoundToTheNextInstruction : Prop :=
  (∀ decl : Line, (cleanLine decl).getLast? = some ':' ↔ ∃ name, classify decl = .label name) ∧
  (∀ (decl : Line) (name : Token), classify decl = .label name ↔
    ∃ w : Line, cleanLine decl = name ++ w ++ [':'] ∧ w.all isSpace = true ∧
      ∀ c, name.getLast? = some c → isSpace c = false) ∧
  (∀ (pre post : List Line) (decl : Line) (name : Token), classify decl = .label name →
    (∀ l ∈ post, classify l ≠ .label name) →
    labelLookup (loadSourceText (pre ++ decl :: post)).2 name = some (pre.filterMap instrLine).length) ∧
  (∀ (src : List Line) (name : Token), (∀ l ∈ src, classify l ≠ .label name) →
    labelLookup (loadSourceText src).2 name = none)

/-- 20_memory.md R44, 70_reset_and_hazards.md R241, R243: for every source text the loader's output has
each label bound once, within [0, N], and program load accepts it. -/
def Obligations.LoaderOutputIsAcceptedByProgramLoad : Prop :=
  ∀ (src : List Line) (s : State),
    LabelsOk (loadSourceText src).2 (loadSourceText src).1.length ∧
    (loadProgram (loadSourceText src).1 (loadSourceText src).2 s).1 = .accepted

/-! ### The run -/

/-- 70_reset_and_hazards.md R242: starting a run creates a session with no step counted and the
configuration's values, and changes no architectural state. -/
def Obligations.StartingARunChangesNoArchitecturalState : Prop :=
  ∀ (cfg : RunConfig) (s : State), SameArch s (startRun cfg s) ∧
    (startRun cfg s).outputs = s.outputs ∧
    ∃ ses, (startRun cfg s).session = some ses ∧ ses.steps = 0 ∧ ses.maxSteps = cfg.maxSteps ∧
      ses.traceEnabled = cfg.traceEnabled ∧ ses.stepDelay = cfg.stepDelay

/-- 44_engine.md R167, R169, R171, R172 (the spec's decisions D17, D18, D28, D36): before a step the pc
range is tested, then the budget; after a completed step the observer's request, then cancellation,
each leaving the machine as the step left it; otherwise the run goes on with one more step counted. -/
def Obligations.StopConditionsAreTestedInOrder : Prop :=
  ∀ (stop cancel : Bool) (ses : Session) (s : State),
    (s.idle = true → ∃ t, runTurn stop cancel ses s = .next t ∧
      t = { s with session := none, outcome := some { kind := .halted, steps := ses.steps } }) ∧
    (s.idle = false → ses.maxSteps ≤ ses.steps → ∃ t, runTurn stop cancel ses s = .next t ∧
      t = { s with session := none, outcome := some { kind := .budgetExhausted, steps := ses.steps } }) ∧
    (∀ u, s.idle = false → ses.steps < ses.maxSteps → stepOnce s = .next u → u.result = some .ok →
      ∃ t, runTurn stop cancel ses s = .next t ∧ SameArch u t ∧
        ((ses.traceEnabled = true ∧ stop = true) ∨ cancel = true →
          t.session = none ∧ t.outcome = some { kind := .cancelled, steps := ses.steps + 1 }) ∧
        ((ses.traceEnabled = false ∨ stop = false) → cancel = false →
          t.session = some { ses with steps := ses.steps + 1 } ∧ t.outcome = u.outcome))

/-- 44_engine.md R170: with `traceEnabled`, one snapshot of the state after the whole step follows
whatever the step itself emitted; without it, and after a faulting step, none. -/
def Obligations.SnapshotFollowsEachCompletedStep : Prop :=
  ∀ (stop cancel : Bool) (ses : Session) (s t u : State), s.idle = false → ses.steps < ses.maxSteps →
    stepOnce s = .next u → runTurn stop cancel ses s = .next t →
    (u.result = some .ok → ses.traceEnabled = true →
      ∃ snap : Snapshot, t.outputs = u.outputs ++ [.trace snap] ∧
        snap.step = ses.steps + 1 ∧ snap.maxSteps = ses.maxSteps ∧ snap.Shows u) ∧
    (u.result = some .ok → ses.traceEnabled = false → t.outputs = u.outputs) ∧
    (∀ f, u.result = some (.fault f) → t.outputs = s.outputs)

/-- 60_exceptions.md R205, 44_engine.md R174: a fault ends the run before the step counter, the observer
or cancellation is consulted; pc is then past the faulting line and the rest as the turn began. -/
def Obligations.FaultEndsTheRunWhateverTheHostAnswers : Prop :=
  ∀ (stop cancel : Bool) (ses : Session) (s u : State) (f : FaultRecord), s.idle = false →
    ses.steps < ses.maxSteps → stepOnce s = .next u → u.result = some (.fault f) →
    runTurn stop cancel ses s = .next
      { s with
        pc := s.pc + 1
        result := some (.fault f)
        session := none
        outcome := some { kind := .faulted f, steps := ses.steps } }

/-- 44_engine.md R165, R166, R169, R172 (the order of the stop tests: the spec's decision D17; a budget
of 0: D36): every run ends, with an outcome that counts at most `maxSteps` completed steps, in the
state those steps lead to: exactly `maxSteps` with pc in the program when the budget ended it, pc out
of the program when it halted, at the first step after which the host asks it when it was cancelled,
and one faulting step further when it faulted. -/
def Obligations.EveryRunEndsWithinItsBudget : Prop :=
  ∀ (cfg : RunConfig) (stops cancels : Nat → Bool) (s : State), ∃ t o u,
    run cfg stops cancels s = .next t ∧ t.session = none ∧ t.outcome = some o ∧ o.steps ≤ cfg.maxSteps ∧
    SameStores s t ∧ CompletedSteps o.steps s u ∧
    ((∀ f, o.kind ≠ .faulted f) → SameArch u t ∧ printPort t = printPort u) ∧
    (∀ f, o.kind = .faulted f → o.steps < cfg.maxSteps ∧ t.result = some (.fault f) ∧ t.pc = f.index + 1 ∧
      ∃ v, stepOnce u = .next v ∧ v.result = some (.fault f) ∧ SameArch v t ∧ printPort t = printPort v) ∧
    (o.kind = .budgetExhausted → o.steps = cfg.maxSteps ∧ t.pc < t.prog.length) ∧
    (o.kind = .halted → t.prog.length ≤ t.pc) ∧
    (o.kind = .cancelled → 0 < o.steps ∧ AsksToEnd cfg stops cancels o.steps) ∧
    (∀ k, 0 < k → k ≤ o.steps → AsksToEnd cfg stops cancels k → k = o.steps ∧ o.kind = .cancelled)

/-- 44_engine.md R170, R168 (the numbering: the spec's decision D18): a traced run emits exactly one
snapshot per completed step, numbered from 1, each of the state that so many steps lead to, and an
untraced run emits none. -/
def Obligations.TracedRunsNumberTheirSnapshotsFromOne : Prop :=
  ∀ (cfg : RunConfig) (stops cancels : Nat → Bool) (s t : State) (o : RunOutcome),
    run cfg stops cancels s = .next t → t.outcome = some o →
    ∃ snaps, tracePort t = tracePort s ++ snaps ∧
      (cfg.traceEnabled = true → snaps.map Snapshot.step = List.range' 1 o.steps ∧
        ∀ snap ∈ snaps, snap.maxSteps = cfg.maxSteps ∧
          ∃ u, CompletedSteps snap.step s u ∧ snap.Shows u) ∧
      (cfg.traceEnabled = false → snaps = [])

/-- 44_engine.md R175: after a run that used up its budget or was cancelled, a second run continues the
program: the two together reach the architectural state and the kind of outcome, and emit the print
events, of one run with the second's budget beyond the first's steps and the second's answers, with
the step counts added; untraced, they emit all that it emits. -/
def Obligations.RunsContinueWhereTheBudgetStoppedThem : Prop :=
  ∀ (m k delay : Nat) (traced : Bool) (stops cancels stops' cancels' : Nat → Bool) (s t t' : State)
    (o o' : RunOutcome),
    run { maxSteps := m, traceEnabled := traced, stepDelay := delay } stops cancels s = .next t →
    t.outcome = some o → (o.kind = .budgetExhausted ∨ o.kind = .cancelled) →
    run { maxSteps := k, traceEnabled := traced, stepDelay := delay } stops' cancels' t = .next t' →
    t'.outcome = some o' →
    ∃ u, run { maxSteps := o.steps + k, traceEnabled := traced, stepDelay := delay }
        (answersAfter o.steps stops') (answersAfter o.steps cancels') s = .next u ∧
      SameArch t' u ∧ printPort u = printPort t' ∧ (traced = false → u.outputs = t'.outputs) ∧
      u.outcome = some { kind := o'.kind, steps := o.steps + o'.steps }

/-! ### The host's words -/

/-- The model's numbering of a line as a word (assumption log 4): a well-formed instruction's word reads
back as that instruction. -/
def Obligations.TableWordOfAnInstructionReadsBack : Prop :=
  ∀ i : Instr, i.wellFormed Config.resOperandPolicy 1 = true →
    decodeTableWord i.bits (wordOfLine (encode i)) = some i

/-- The model's `withFetchWord` (assumption log 5): the next step fetches the word's line from pc, and
every other line, the registers, the flags, pc and the labels are as before. -/
def Obligations.StoredFetchWordIsWhatTheNextStepFetches : Prop :=
  ∀ (s : State) (nbits w : Nat),
    (s.withFetchWord nbits w).fetch = some (lineOfWord nbits w) ∧ (s.withFetchWord nbits w).willStep ∧
    SameRegs s (s.withFetchWord nbits w) ∧ SameFlags s (s.withFetchWord nbits w) ∧
    (s.withFetchWord nbits w).pc = s.pc ∧ (s.withFetchWord nbits w).labels = s.labels ∧
    (∀ j line, j ≠ s.pc → s.prog[j]? = some line → (s.withFetchWord nbits w).prog[j]? = some line)
end

