-- ==== Sys2Proof/Laws/State.lean ====
section
/-! SUPPORT. One lemma per field per update of State, and the read and write laws of the registers. -/

namespace Sys2Proof.Machine

/-! The register file -/

@[simp] theorem RegFile.get_set_self (x : RegFile) (r : RegName) (v : Byte) : (x.set r v).get r = v := by
  cases r <;> rfl

@[simp] theorem RegFile.get_set_other (x : RegFile) (r d : RegName) (v : Byte) (h : r ≠ d) :
    (x.set d v).get r = x.get r := by
  cases r <;> cases d <;> first | rfl | exact absurd rfl h

theorem RegFile.ext_get {x y : RegFile} (h : ∀ r, x.get r = y.get r) : x = y := by
  obtain ⟨_, _, _, _, _⟩ := x
  obtain ⟨_, _, _, _, _⟩ := y
  have hA := h .A
  have hB := h .B
  have hC := h .C
  have hD := h .D
  have hR := h .RES
  simp only [RegFile.get] at hA hB hC hD hR
  simp [hA, hB, hC, hD, hR]

theorem RegFile.set_get_self (x : RegFile) (r : RegName) : x.set r (x.get r) = x := by
  cases r <;> rfl

/-! `State.writeReg` -/
@[simp] theorem State.writeReg_regs (s : State) (r : RegName) (v : Byte) : (s.writeReg r v).regs = s.regs.set r v := rfl
@[simp] theorem State.writeReg_carry (s : State) (r : RegName) (v : Byte) : (s.writeReg r v).carry = s.carry := rfl
@[simp] theorem State.writeReg_zero (s : State) (r : RegName) (v : Byte) : (s.writeReg r v).zero = s.zero := rfl
@[simp] theorem State.writeReg_pc (s : State) (r : RegName) (v : Byte) : (s.writeReg r v).pc = s.pc := rfl
@[simp] theorem State.writeReg_prog (s : State) (r : RegName) (v : Byte) : (s.writeReg r v).prog = s.prog := rfl
@[simp] theorem State.writeReg_labels (s : State) (r : RegName) (v : Byte) : (s.writeReg r v).labels = s.labels := rfl
@[simp] theorem State.writeReg_session (s : State) (r : RegName) (v : Byte) : (s.writeReg r v).session = s.session := rfl
@[simp] theorem State.writeReg_result (s : State) (r : RegName) (v : Byte) : (s.writeReg r v).result = s.result := rfl
@[simp] theorem State.writeReg_outcome (s : State) (r : RegName) (v : Byte) : (s.writeReg r v).outcome = s.outcome := rfl
@[simp] theorem State.writeReg_outputs (s : State) (r : RegName) (v : Byte) : (s.writeReg r v).outputs = s.outputs := rfl
@[simp] theorem State.writeReg_draws (s : State) (r : RegName) (v : Byte) : (s.writeReg r v).draws = s.draws := rfl

/-! `State.writeFlags` -/
@[simp] theorem State.writeFlags_regs (s : State) (c z : Bool) : (s.writeFlags c z).regs = s.regs := rfl
@[simp] theorem State.writeFlags_carry (s : State) (c z : Bool) : (s.writeFlags c z).carry = c := rfl
@[simp] theorem State.writeFlags_zero (s : State) (c z : Bool) : (s.writeFlags c z).zero = z := rfl
@[simp] theorem State.writeFlags_pc (s : State) (c z : Bool) : (s.writeFlags c z).pc = s.pc := rfl
@[simp] theorem State.writeFlags_prog (s : State) (c z : Bool) : (s.writeFlags c z).prog = s.prog := rfl
@[simp] theorem State.writeFlags_labels (s : State) (c z : Bool) : (s.writeFlags c z).labels = s.labels := rfl
@[simp] theorem State.writeFlags_session (s : State) (c z : Bool) : (s.writeFlags c z).session = s.session := rfl
@[simp] theorem State.writeFlags_result (s : State) (c z : Bool) : (s.writeFlags c z).result = s.result := rfl
@[simp] theorem State.writeFlags_outcome (s : State) (c z : Bool) : (s.writeFlags c z).outcome = s.outcome := rfl
@[simp] theorem State.writeFlags_outputs (s : State) (c z : Bool) : (s.writeFlags c z).outputs = s.outputs := rfl
@[simp] theorem State.writeFlags_draws (s : State) (c z : Bool) : (s.writeFlags c z).draws = s.draws := rfl

/-! `State.setPc` -/
@[simp] theorem State.setPc_regs (s : State) (t : Nat) : (s.setPc t).regs = s.regs := rfl
@[simp] theorem State.setPc_carry (s : State) (t : Nat) : (s.setPc t).carry = s.carry := rfl
@[simp] theorem State.setPc_zero (s : State) (t : Nat) : (s.setPc t).zero = s.zero := rfl
@[simp] theorem State.setPc_pc (s : State) (t : Nat) : (s.setPc t).pc = t := rfl
@[simp] theorem State.setPc_prog (s : State) (t : Nat) : (s.setPc t).prog = s.prog := rfl
@[simp] theorem State.setPc_labels (s : State) (t : Nat) : (s.setPc t).labels = s.labels := rfl
@[simp] theorem State.setPc_session (s : State) (t : Nat) : (s.setPc t).session = s.session := rfl
@[simp] theorem State.setPc_result (s : State) (t : Nat) : (s.setPc t).result = s.result := rfl
@[simp] theorem State.setPc_outcome (s : State) (t : Nat) : (s.setPc t).outcome = s.outcome := rfl
@[simp] theorem State.setPc_outputs (s : State) (t : Nat) : (s.setPc t).outputs = s.outputs := rfl
@[simp] theorem State.setPc_draws (s : State) (t : Nat) : (s.setPc t).draws = s.draws := rfl

/-! `State.emit` -/
@[simp] theorem State.emit_regs (s : State) (e : PortEvent) : (s.emit e).regs = s.regs := rfl
@[simp] theorem State.emit_carry (s : State) (e : PortEvent) : (s.emit e).carry = s.carry := rfl
@[simp] theorem State.emit_zero (s : State) (e : PortEvent) : (s.emit e).zero = s.zero := rfl
@[simp] theorem State.emit_pc (s : State) (e : PortEvent) : (s.emit e).pc = s.pc := rfl
@[simp] theorem State.emit_prog (s : State) (e : PortEvent) : (s.emit e).prog = s.prog := rfl
@[simp] theorem State.emit_labels (s : State) (e : PortEvent) : (s.emit e).labels = s.labels := rfl
@[simp] theorem State.emit_session (s : State) (e : PortEvent) : (s.emit e).session = s.session := rfl
@[simp] theorem State.emit_result (s : State) (e : PortEvent) : (s.emit e).result = s.result := rfl
@[simp] theorem State.emit_outcome (s : State) (e : PortEvent) : (s.emit e).outcome = s.outcome := rfl
@[simp] theorem State.emit_outputs (s : State) (e : PortEvent) : (s.emit e).outputs = s.outputs ++ [e] := rfl
@[simp] theorem State.emit_draws (s : State) (e : PortEvent) : (s.emit e).draws = s.draws := rfl

/-! `State.beginStep` -/
@[simp] theorem State.beginStep_regs (s : State) : s.beginStep.regs = s.regs := rfl
@[simp] theorem State.beginStep_carry (s : State) : s.beginStep.carry = s.carry := rfl
@[simp] theorem State.beginStep_zero (s : State) : s.beginStep.zero = s.zero := rfl
@[simp] theorem State.beginStep_pc (s : State) : s.beginStep.pc = s.pc + 1 := rfl
@[simp] theorem State.beginStep_prog (s : State) : s.beginStep.prog = s.prog := rfl
@[simp] theorem State.beginStep_labels (s : State) : s.beginStep.labels = s.labels := rfl
@[simp] theorem State.beginStep_session (s : State) : s.beginStep.session = s.session := rfl
@[simp] theorem State.beginStep_result (s : State) : s.beginStep.result = some .ok := rfl
@[simp] theorem State.beginStep_outcome (s : State) : s.beginStep.outcome = s.outcome := rfl
@[simp] theorem State.beginStep_outputs (s : State) : s.beginStep.outputs = s.outputs := rfl
@[simp] theorem State.beginStep_draws (s : State) : s.beginStep.draws = s.draws := rfl

/-! `State.raise` -/
@[simp] theorem State.raise_regs (s : State) (k : ErrorKind) : (s.raise k).regs = s.regs := rfl
@[simp] theorem State.raise_carry (s : State) (k : ErrorKind) : (s.raise k).carry = s.carry := rfl
@[simp] theorem State.raise_zero (s : State) (k : ErrorKind) : (s.raise k).zero = s.zero := rfl
@[simp] theorem State.raise_pc (s : State) (k : ErrorKind) : (s.raise k).pc = s.pc := rfl
@[simp] theorem State.raise_prog (s : State) (k : ErrorKind) : (s.raise k).prog = s.prog := rfl
@[simp] theorem State.raise_labels (s : State) (k : ErrorKind) : (s.raise k).labels = s.labels := rfl
@[simp] theorem State.raise_session (s : State) (k : ErrorKind) : (s.raise k).session = s.session := rfl
@[simp] theorem State.raise_result (s : State) (k : ErrorKind) : (s.raise k).result = some (.fault (s.faultRecord k)) := rfl
@[simp] theorem State.raise_outcome (s : State) (k : ErrorKind) : (s.raise k).outcome = s.outcome := rfl
@[simp] theorem State.raise_outputs (s : State) (k : ErrorKind) : (s.raise k).outputs = s.outputs := rfl
@[simp] theorem State.raise_draws (s : State) (k : ErrorKind) : (s.raise k).draws = s.draws := rfl

/-! `State.idleStep` -/
@[simp] theorem State.idleStep_regs (s : State) : s.idleStep.regs = s.regs := rfl
@[simp] theorem State.idleStep_carry (s : State) : s.idleStep.carry = s.carry := rfl
@[simp] theorem State.idleStep_zero (s : State) : s.idleStep.zero = s.zero := rfl
@[simp] theorem State.idleStep_pc (s : State) : s.idleStep.pc = s.pc := rfl
@[simp] theorem State.idleStep_prog (s : State) : s.idleStep.prog = s.prog := rfl
@[simp] theorem State.idleStep_labels (s : State) : s.idleStep.labels = s.labels := rfl
@[simp] theorem State.idleStep_session (s : State) : s.idleStep.session = s.session := rfl
@[simp] theorem State.idleStep_result (s : State) : s.idleStep.result = some .idle := rfl
@[simp] theorem State.idleStep_outcome (s : State) : s.idleStep.outcome = s.outcome := rfl
@[simp] theorem State.idleStep_outputs (s : State) : s.idleStep.outputs = s.outputs := rfl
@[simp] theorem State.idleStep_draws (s : State) : s.idleStep.draws = s.draws := rfl

/-! `State.endRun` -/
@[simp] theorem State.endRun_regs (s : State) (k : OutcomeKind) (n : Nat) : (s.endRun k n).regs = s.regs := rfl
@[simp] theorem State.endRun_carry (s : State) (k : OutcomeKind) (n : Nat) : (s.endRun k n).carry = s.carry := rfl
@[simp] theorem State.endRun_zero (s : State) (k : OutcomeKind) (n : Nat) : (s.endRun k n).zero = s.zero := rfl
@[simp] theorem State.endRun_pc (s : State) (k : OutcomeKind) (n : Nat) : (s.endRun k n).pc = s.pc := rfl
@[simp] theorem State.endRun_prog (s : State) (k : OutcomeKind) (n : Nat) : (s.endRun k n).prog = s.prog := rfl
@[simp] theorem State.endRun_labels (s : State) (k : OutcomeKind) (n : Nat) : (s.endRun k n).labels = s.labels := rfl
@[simp] theorem State.endRun_session (s : State) (k : OutcomeKind) (n : Nat) : (s.endRun k n).session = none := rfl
@[simp] theorem State.endRun_result (s : State) (k : OutcomeKind) (n : Nat) : (s.endRun k n).result = s.result := rfl
@[simp] theorem State.endRun_outcome (s : State) (k : OutcomeKind) (n : Nat) : (s.endRun k n).outcome = some { kind := k, steps := n } := rfl
@[simp] theorem State.endRun_outputs (s : State) (k : OutcomeKind) (n : Nat) : (s.endRun k n).outputs = s.outputs := rfl
@[simp] theorem State.endRun_draws (s : State) (k : OutcomeKind) (n : Nat) : (s.endRun k n).draws = s.draws := rfl

/-! Reading a register after an update -/

@[simp] theorem State.readReg_writeReg_self (s : State) (r : RegName) (v : Byte) :
    (s.writeReg r v).readReg r = v := RegFile.get_set_self s.regs r v

@[simp] theorem State.readReg_writeReg_other (s : State) (r d : RegName) (v : Byte) (h : r ≠ d) :
    (s.writeReg d v).readReg r = s.readReg r := RegFile.get_set_other s.regs r d v h

@[simp] theorem State.readReg_writeFlags (s : State) (c z : Bool) (r : RegName) :
    (s.writeFlags c z).readReg r = s.readReg r := rfl

@[simp] theorem State.readReg_setPc (s : State) (t : Nat) (r : RegName) :
    (s.setPc t).readReg r = s.readReg r := rfl

@[simp] theorem State.readReg_emit (s : State) (e : PortEvent) (r : RegName) :
    (s.emit e).readReg r = s.readReg r := rfl

@[simp] theorem State.readReg_beginStep (s : State) (r : RegName) :
    s.beginStep.readReg r = s.readReg r := rfl

@[simp] theorem State.readReg_raise (s : State) (k : ErrorKind) (r : RegName) :
    (s.raise k).readReg r = s.readReg r := rfl

end Sys2Proof.Machine
end

