-- ==== Sys2Proof/Laws/Alu.lean ====
section
/-! SUPPORT. The ALU's results and flags in natural number arithmetic (40_alu.md R100), and what an ALU
instruction does in each of its two cases (R105). -/

namespace Sys2Proof.Machine

@[simp] theorem aluOut_res (v : Byte) (c : Bool) : (aluOut v c).res = v := rfl
@[simp] theorem aluOut_carry (v : Byte) (c : Bool) : (aluOut v c).carry = c := rfl
@[simp] theorem aluOut_zero (v : Byte) (c : Bool) : (aluOut v c).zero = decide (v = 0) := rfl

/-- The zero flag of any ALU output says whether the stored result is 0 (10_state.md R25). -/
theorem decide_eq_zero_toNat (v : Byte) : decide (v = 0) = decide (v.toNat = 0) := by
  rw [decide_eq_decide, BitVec.toNat_eq]
  rfl

theorem maskRaw_toNat (raw : Int) : (maskRaw raw).toNat = (raw % 256).toNat := by
  simp [maskRaw, BitVec.toNat_ofInt]

theorem aluAdd_res (v1 v2 : Byte) : (aluAdd v1 v2).res.toNat = (v1.toNat + v2.toNat) % 256 := by
  simp only [aluAdd, aluOut_res, maskRaw_toNat, rawAdd]
  omega

theorem aluAdd_carry (v1 v2 : Byte) : (aluAdd v1 v2).carry = decide (255 < v1.toNat + v2.toNat) := by
  rw [aluAdd, aluOut_carry, decide_eq_decide, rawAdd]
  omega

theorem aluSub_res (v1 v2 : Byte) :
    ((aluSub v1 v2).res.toNat : Int) = ((v1.toNat : Int) - v2.toNat) % 256 := by
  simp only [aluSub, aluOut_res, maskRaw_toNat, rawSub]
  omega

theorem aluSub_carry (v1 v2 : Byte) : (aluSub v1 v2).carry = decide (v1.toNat < v2.toNat) := by
  rw [aluSub, aluOut_carry, decide_eq_decide, rawSub]
  omega

theorem aluMul_res (v1 v2 : Byte) : (aluMul v1 v2).res.toNat = (v1.toNat * v2.toNat) % 256 := by
  simp only [aluMul, aluOut_res, maskRaw_toNat, rawMul]
  omega

theorem aluMul_carry (v1 v2 : Byte) : (aluMul v1 v2).carry = decide (255 < v1.toNat * v2.toNat) := by
  rw [aluMul, aluOut_carry, decide_eq_decide, rawMul]
  norm_cast

theorem aluDiv_res (v1 v2 : Byte) (c : Bool) : (aluDiv v1 v2 c).res.toNat = v1.toNat / v2.toNat := by
  have h1 : v1.toNat < 256 := v1.isLt
  have h2 : v1.toNat / v2.toNat ≤ v1.toNat := Nat.div_le_self _ _
  rw [aluDiv, aluOut_res, BitVec.toNat_ofNat, Nat.mod_eq_of_lt (by omega)]

@[simp] theorem aluDiv_carry (v1 v2 : Byte) (c : Bool) : (aluDiv v1 v2 c).carry = c := rfl

/-- Every output of the ALU has `zero` set exactly when its result is 0 (R100). -/
theorem alu_zero {op : AluOp} {v1 v2 : Byte} {c : Bool} {out : AluOut} (h : alu op v1 v2 c = some out) :
    out.zero = decide (out.res.toNat = 0) := by
  rw [← decide_eq_zero_toNat]
  cases op <;> simp only [alu, Option.some.injEq] at h
  case div => split at h <;> simp_all [aluDiv, aluOut]; subst h; rfl
  all_goals subst h; rfl

/-- Division by zero is the ALU's only failure (R100). -/
theorem alu_none {op : AluOp} {v1 v2 : Byte} {c : Bool} :
    alu op v1 v2 c = none ↔ op = .div ∧ v2.toNat = 0 := by
  cases op <;> simp [alu, BitVec.toNat_eq]

theorem execAlu_some {op : AluOp} {r1 r2 : RegName} {s : State} {out : AluOut}
    (h : alu op (s.readReg r1) (s.readReg r2) s.carry = some out) :
    execAlu op r1 r2 s = (s.writeReg .RES out.res).writeFlags out.carry out.zero := by
  simp [execAlu, h]

theorem execAlu_none {op : AluOp} {r1 r2 : RegName} {s : State}
    (h : alu op (s.readReg r1) (s.readReg r2) s.carry = none) :
    execAlu op r1 r2 s = s.raise .divisionByZero := by
  simp [execAlu, h]

end Sys2Proof.Machine
end

