-- ==== Sys2Proof/Laws/Decode.lean ====
section
/-! SUPPORT. The tokenizer on lines put together from tokens and gaps, the decimal spelling read back,
and the decoder past its tokenizer. -/

namespace Sys2Proof

/-! ### Tokens -/

/-- A token as R10 has it: not empty, no whitespace character in it. -/
def IsToken (tok : Token) : Prop := tok ≠ [] ∧ ∀ c ∈ tok, isSpace c = false

/-- Characters that are no whitespace go to the token in progress. -/
theorem tokensFrom_nonspace (tok : Token) (h : ∀ c ∈ tok, isSpace c = false) (run : Token) (rest : Line) :
    tokensFrom run (tok ++ rest) = tokensFrom (tok.reverse ++ run) rest := by
  induction tok generalizing run with
  | nil => rfl
  | cons c cs ih =>
    have hc : isSpace c = false := h c (by simp)
    simp only [List.cons_append, tokensFrom, hc, Bool.false_eq_true, if_false]
    rw [ih (fun d hd => h d (by simp [hd]))]
    simp

/-- A whitespace character ends the token in progress. -/
theorem tokensFrom_space (c : Char) (h : isSpace c = true) (run : Token) (rest : Line) :
    tokensFrom run (c :: rest) = closeToken run ++ tokensFrom [] rest := by
  simp [tokensFrom, h]

/-- A gap ends the token in progress and yields no token itself (R61). -/
theorem tokensFrom_gap (w : Line) (h : w.all isSpace = true) (run : Token) (rest : Line) :
    tokensFrom run (w ++ rest) = if w = [] then tokensFrom run rest else closeToken run ++ tokensFrom [] rest := by
  induction w generalizing run with
  | nil => rfl
  | cons c cs ih =>
    simp only [List.all_cons, Bool.and_eq_true] at h
    rw [List.cons_append, tokensFrom_space c h.1, ih h.2]
    simp [closeToken]

theorem closeToken_reverse (tok : Token) (h : tok ≠ []) : closeToken tok.reverse = [tok] := by
  cases ht : tok.reverse with
  | nil => exact absurd (List.reverse_eq_nil_iff.1 ht) h
  | cons c cs => rw [closeToken, ← ht, List.reverse_reverse]

/-- The tokens of tokens joined by single spaces are those tokens (R80). -/
theorem tokens_joinTokens (ts : List Token) (h : ∀ t ∈ ts, IsToken t) : tokens (joinTokens ts) = ts := by
  unfold tokens
  induction ts with
  | nil => rfl
  | cons t rest ih =>
    have ht : IsToken t := h t (by simp)
    cases rest with
    | nil =>
      have := tokensFrom_nonspace t ht.2 [] []
      rw [List.append_nil] at this
      rw [joinTokens, this, List.append_nil, tokensFrom, closeToken_reverse t ht.1]
    | cons t' rest' =>
      rw [joinTokens, tokensFrom_nonspace t ht.2, tokensFrom_space ' ' (by decide), List.append_nil,
        closeToken_reverse t ht.1, ih (fun t ht => h t (by simp [ht]))]
      rfl

/-! ### Decimal spellings -/

theorem digitChar_toNat {d : Nat} (h : d < 10) : (digitChar d).toNat = 0x30 + d := by
  revert h
  revert d
  decide

theorem isDigit_digitChar {d : Nat} (h : d < 10) : isDigit (digitChar d) = true := by
  rw [isDigit, digitChar_toNat h]
  simp
  omega

/-- A digit is no whitespace character. -/
theorem isSpace_of_isDigit {c : Char} (h : isDigit c = true) : isSpace c = false := by
  simp only [isDigit, decide_eq_true_eq] at h
  simp only [isSpace, List.contains_eq_mem, List.mem_cons, List.not_mem_nil, or_false, decide_eq_false_iff_not]
  omega

/-- One more digit at the end of a spelling (R66). -/
theorem decimalValue_snoc (tok : Token) (c : Char) (acc : Nat) :
    decimalValue acc (tok ++ [c]) = decimalValue acc tok * 10 + (c.toNat - 0x30) := by
  induction tok generalizing acc with
  | nil => rfl
  | cons d ds ih => exact ih _

theorem decimalDigitsRev_digits (fuel n : Nat) : ∀ c ∈ decimalDigitsRev fuel n, isDigit c = true := by
  induction fuel generalizing n with
  | zero => simp [decimalDigitsRev]
  | succ fuel ih =>
    intro c hc
    rw [decimalDigitsRev, List.mem_cons] at hc
    obtain rfl | hc := hc
    · exact isDigit_digitChar (Nat.mod_lt _ (by decide))
    · split at hc
      · cases hc
      · exact ih _ c hc

theorem decimalDigitsRev_value (fuel n : Nat) (h : n < fuel) :
    decimalValue 0 (decimalDigitsRev fuel n).reverse = n := by
  induction fuel generalizing n with
  | zero => omega
  | succ fuel ih =>
    rw [decimalDigitsRev, List.reverse_cons, decimalValue_snoc, digitChar_toNat (Nat.mod_lt _ (by decide))]
    split
    · rename_i h0
      show 0 * 10 + _ = n
      omega
    · rw [ih _ (by omega)]
      omega

theorem decimal_digits (n : Nat) : ∀ c ∈ decimal n, isDigit c = true := by
  intro c hc
  exact decimalDigitsRev_digits _ _ c (List.mem_reverse.1 hc)

theorem decimal_ne_nil (n : Nat) : decimal n ≠ [] := by
  simp [decimal, decimalDigitsRev]

theorem decimal_value (n : Nat) : decimalValue 0 (decimal n) = n := decimalDigitsRev_value _ _ (Nat.lt_succ_self n)

/-- A non-empty string of digits is a literal with its base-10 value (R66). -/
theorem literal_of_digits (tok : Token) (hne : tok ≠ []) (h : ∀ c ∈ tok, isDigit c = true) :
    literal tok = some (decimalValue 0 tok) := by
  cases tok with
  | nil => exact absurd rfl hne
  | cons c cs => simp only [literal]; rw [if_pos (List.all_eq_true.2 h)]

/-- Whatever is a literal is a non-empty string of digits (R66). -/
theorem digits_of_literal {tok : Token} {k : Nat} (h : literal tok = some k) :
    tok ≠ [] ∧ (∀ c ∈ tok, isDigit c = true) ∧ decimalValue 0 tok = k := by
  cases tok with
  | nil => cases h
  | cons c cs =>
    simp only [literal] at h
    split at h
    · rename_i hd
      exact ⟨by simp, List.all_eq_true.1 hd, by simpa using h⟩
    · cases h

theorem literal_decimal (n : Nat) : literal (decimal n) = some n := by
  rw [literal_of_digits _ (decimal_ne_nil n) (decimal_digits n), decimal_value]

theorem isToken_decimal (n : Nat) : IsToken (decimal n) :=
  ⟨decimal_ne_nil n, fun c hc => isSpace_of_isDigit (decimal_digits n c hc)⟩

theorem isToken_regName (r : RegName) : IsToken r.spelling := by
  cases r <;> simp [IsToken, RegName.spelling, isSpace]

theorem isToken_mnemonic (o : Opcode) : IsToken o.mnemonic := by
  cases o <;> simp [IsToken, Opcode.mnemonic, isSpace]

theorem isToken_src (src : Src) : IsToken src.spelling := by
  cases src with
  | reg r => exact isToken_regName r
  | imm n => exact isToken_decimal n

/-! ### Names and literals -/

theorem regName_ofToken_spelling (r : RegName) : RegName.ofToken r.spelling = some r := by
  cases r <;> rfl

theorem spelling_of_ofToken {tok : Token} {r : RegName} (h : RegName.ofToken tok = some r) : r.spelling = tok := by
  simpa using List.find?_some h

/-- No literal is a register name (R65, R66). -/
theorem ofToken_of_literal {tok : Token} {k : Nat} (h : literal tok = some k) : RegName.ofToken tok = none := by
  cases ho : RegName.ofToken tok with
  | none => rfl
  | some r =>
    have hs := spelling_of_ofToken ho
    subst hs
    cases r <;> simp [RegName.spelling, literal, isDigit] at h

theorem opcode_ofToken_mnemonic (o : Opcode) : Opcode.ofToken o.mnemonic = some o := by
  cases o <;> rfl

theorem mnemonic_of_ofToken {tok : Token} {o : Opcode} (h : Opcode.ofToken tok = some o) : o.mnemonic = tok := by
  simpa using List.find?_some h

/-- A line whose first token is a mnemonic decodes by its operand tokens (R72). -/
theorem decodeTokens_mnemonic (policy : ResOperandPolicy) (labels : LabelTable) (n : Nat) (o : Opcode)
    (operands : List Token) :
    decodeTokens policy labels n (o.mnemonic :: operands) = decodeOperands policy labels n o operands := by
  rw [decodeTokens, opcode_ofToken_mnemonic]

/-! ### Operands (R64 to R69, 42_control.md R130) -/

theorem regOperand_spelling (policy : ResOperandPolicy) (r : RegName) :
    regOperand policy false r.spelling = .ok r := by
  cases r <;> cases policy <;> rfl

theorem regOperand_dest_spelling (policy : ResOperandPolicy) (rd : RegName) :
    regOperand policy true rd.spelling =
      if wellFormedDest policy rd then .ok rd else .error .unknownRegister := by
  cases rd <;> cases policy <;> rfl

/-- What a register operand resolves to is spelt by the token, and only `UnknownRegister` can fail (R68). -/
theorem regOperand_cases (policy : ResOperandPolicy) (isDest : Bool) (tok : Token) :
    (∃ r, RegName.ofToken tok = some r ∧ regOperand policy isDest tok = .ok r) ∨
      regOperand policy isDest tok = .error .unknownRegister := by
  unfold regOperand
  cases RegName.ofToken tok with
  | none => exact Or.inr rfl
  | some r =>
    cases r <;> dsimp only
    case RES => split
                · exact Or.inr rfl
                · exact Or.inl ⟨_, rfl, rfl⟩
    all_goals exact Or.inl ⟨_, rfl, rfl⟩

theorem loadSource_spelling (src : Src) : loadSource src.spelling = .ok src := by
  cases src with
  | reg r => simp [Src.spelling, loadSource, regName_ofToken_spelling]
  | imm k => simp [Src.spelling, loadSource, ofToken_of_literal (literal_decimal k), literal_decimal]

/-- Only `UnknownRegister` can fail LOAD's source (R69). -/
theorem loadSource_cases (tok : Token) :
    (∃ src, loadSource tok = .ok src) ∨ loadSource tok = .error .unknownRegister := by
  unfold loadSource
  cases RegName.ofToken tok with
  | some r => exact Or.inl ⟨_, rfl⟩
  | none =>
    cases literal tok with
    | some n => exact Or.inl ⟨_, rfl⟩
    | none => exact Or.inr rfl

theorem mem_of_labelLookup {labels : LabelTable} {tok : Token} {i : Nat}
    (h : labelLookup labels tok = some i) : (tok, i) ∈ labels := by
  induction labels with
  | nil => cases h
  | cons p rest ih =>
    obtain ⟨name, j⟩ := p
    simp only [labelLookup] at h
    split at h
    · rename_i hn
      cases hn
      cases h
      exact List.mem_cons_self
    · exact List.mem_cons_of_mem _ (ih h)

/-- What a target resolves to lies in [0, N] when the labels do, and only `InvalidJumpTarget` can fail (R130). -/
theorem resolveTarget_cases (labels : LabelTable) (n : Nat) (tok : Token) :
    (∃ k, resolveTarget labels n tok = .ok k ∧ ((tok, k) ∈ labels ∨ k ≤ n)) ∨
      resolveTarget labels n tok = .error .invalidJumpTarget := by
  unfold resolveTarget
  cases hl : labelLookup labels tok with
  | some i => exact Or.inl ⟨i, rfl, Or.inl (mem_of_labelLookup hl)⟩
  | none =>
    cases literal tok with
    | none => exact Or.inr rfl
    | some t =>
      dsimp only
      split
      · rename_i ht
        exact Or.inl ⟨t, rfl, Or.inr ht⟩
      · exact Or.inr rfl

/-- An operand count that is not the opcode's is malformed, whatever the operands are (R63, R75). -/
theorem decodeOperands_arity (policy : ResOperandPolicy) (labels : LabelTable) (n : Nat) (o : Opcode)
    (operands : List Token) (h : operands.length ≠ o.arity) :
    decodeOperands policy labels n o operands = .error .malformedInstruction := by
  match operands, h with
  | [], _ => cases o <;> rfl
  | [_], h => cases o <;> first | rfl | exact absurd rfl h
  | [_, _], h => cases o <;> first | rfl | exact absurd rfl h
  | _ :: _ :: _ :: _, _ => cases o <;> rfl

end Sys2Proof
end

