-- ==== Sys2Proof/Laws/Step.lean ====
section
/-! SUPPORT. The step, the turn of the run loop and the instructions as functions of states, and what
each can do, said once. -/

namespace Sys2Proof.Machine

/-! ### Fetch and Idle -/

theorem fetch_none_iff (s : State) : s.fetch = none ↔ s.idle = true := by
  simp [State.fetch, State.idle]

theorem idle_of_fetch {s : State} {line : Line} (h : s.fetch = some line) : s.idle = false := by
  cases hi : s.idle
  · rfl
  · rw [(fetch_none_iff s).2 hi] at h; cases h

theorem fetch_of_not_idle {s : State} (h : s.idle = false) : ∃ line, s.fetch = some line := by
  cases hf : s.fetch with
  | some line => exact ⟨line, rfl⟩
  | none => rw [(fetch_none_iff s).1 hf] at h; cases h

theorem idle_eq_false_iff (s : State) : s.idle = false ↔ s.pc < s.prog.length := by
  simp [State.idle]

theorem idle_eq_true_iff (s : State) : s.idle = true ↔ s.prog.length ≤ s.pc := by
  simp [State.idle]

/-! ### The effect of an instruction -/

/-- What `exec` answers, as a state. -/
def effect (i : Instr) (s : State) : State :=
  match i with
  | .add r1 r2 => execAlu .add r1 r2 s
  | .sub r1 r2 => execAlu .sub r1 r2 s
  | .mul r1 r2 => execAlu .mul r1 r2 s
  | .div r1 r2 => execAlu .div r1 r2 s
  | .load src rd => s.writeReg rd (srcValue src s)
  | .jmp t => execJump .always t s
  | .jz t => execJump .ifZero t s
  | .jnz t => execJump .ifNotZero t s
  | .jc t => execJump .ifCarry t s
  | .jnc t => execJump .ifNotCarry t s
  | .print r => s.emit (.print r (s.readReg r))

theorem exec_eq_effect (i : Instr) (s : State) : exec i s = .next (effect i s) := by
  cases i <;> rfl

/-- The ALU operation of an instruction with its sources, if it is an ALU instruction. -/
def aluForm : Instr → Option (AluOp × RegName × RegName)
  | .add r1 r2 => some (.add, r1, r2)
  | .sub r1 r2 => some (.sub, r1, r2)
  | .mul r1 r2 => some (.mul, r1, r2)
  | .div r1 r2 => some (.div, r1, r2)
  | .load _ _ => none
  | .jmp _ => none
  | .jz _ => none
  | .jnz _ => none
  | .jc _ => none
  | .jnc _ => none
  | .print _ => none

/-- The two cases of an ALU instruction (40_alu.md R105). -/
theorem execAlu_cases (op : AluOp) (r1 r2 : RegName) (s : State) :
    (∃ out, alu op (s.readReg r1) (s.readReg r2) s.carry = some out ∧
      execAlu op r1 r2 s = (s.writeReg .RES out.res).writeFlags out.carry out.zero) ∨
    (op = .div ∧ (s.readReg r2).toNat = 0 ∧ execAlu op r1 r2 s = s.raise .divisionByZero) := by
  cases ha : alu op (s.readReg r1) (s.readReg r2) s.carry with
  | some out => exact Or.inl ⟨out, rfl, execAlu_some ha⟩
  | none => exact Or.inr ⟨(alu_none.1 ha).1, (alu_none.1 ha).2, execAlu_none ha⟩

/-- The two cases of a jump (42_control.md). -/
theorem execJump_cases (cond : Cond) (k : Nat) (s : State) :
    execJump cond k s = s.setPc k ∨ execJump cond k s = s := by
  unfold execJump
  split
  · exact Or.inl rfl
  · exact Or.inr rfl

/-- Everything an instruction can do (44_engine.md R164). -/
theorem effect_cases (i : Instr) (s : State) :
    (∃ op r1 r2 out, aluForm i = some (op, r1, r2) ∧
      alu op (s.readReg r1) (s.readReg r2) s.carry = some out ∧
      effect i s = (s.writeReg .RES out.res).writeFlags out.carry out.zero) ∨
    (∃ r1 r2, i = .div r1 r2 ∧ (s.readReg r2).toNat = 0 ∧ effect i s = s.raise .divisionByZero) ∨
    (∃ src rd, i = .load src rd ∧ effect i s = s.writeReg rd (srcValue src s)) ∨
    (∃ k, target i = some k ∧ (effect i s = s.setPc k ∨ effect i s = s)) ∨
    (∃ r, i = .print r ∧ effect i s = s.emit (.print r (s.readReg r))) := by
  cases i with
  | add r1 r2 =>
    obtain ⟨out, ha, he⟩ | ⟨hop, -⟩ := execAlu_cases .add r1 r2 s
    · exact Or.inl ⟨_, _, _, out, rfl, ha, he⟩
    · cases hop
  | sub r1 r2 =>
    obtain ⟨out, ha, he⟩ | ⟨hop, -⟩ := execAlu_cases .sub r1 r2 s
    · exact Or.inl ⟨_, _, _, out, rfl, ha, he⟩
    · cases hop
  | mul r1 r2 =>
    obtain ⟨out, ha, he⟩ | ⟨hop, -⟩ := execAlu_cases .mul r1 r2 s
    · exact Or.inl ⟨_, _, _, out, rfl, ha, he⟩
    · cases hop
  | div r1 r2 =>
    obtain ⟨out, ha, he⟩ | ⟨-, hz, he⟩ := execAlu_cases .div r1 r2 s
    · exact Or.inl ⟨_, _, _, out, rfl, ha, he⟩
    · exact Or.inr (Or.inl ⟨r1, r2, rfl, hz, he⟩)
  | load src rd => exact Or.inr (Or.inr (Or.inl ⟨src, rd, rfl, rfl⟩))
  | jmp k => exact Or.inr (Or.inr (Or.inr (Or.inl ⟨k, rfl, execJump_cases .always k s⟩)))
  | jz k => exact Or.inr (Or.inr (Or.inr (Or.inl ⟨k, rfl, execJump_cases .ifZero k s⟩)))
  | jnz k => exact Or.inr (Or.inr (Or.inr (Or.inl ⟨k, rfl, execJump_cases .ifNotZero k s⟩)))
  | jc k => exact Or.inr (Or.inr (Or.inr (Or.inl ⟨k, rfl, execJump_cases .ifCarry k s⟩)))
  | jnc k => exact Or.inr (Or.inr (Or.inr (Or.inl ⟨k, rfl, execJump_cases .ifNotCarry k s⟩)))
  | print r => exact Or.inr (Or.inr (Or.inr (Or.inr ⟨r, rfl, rfl⟩)))

/-- What no instruction changes. -/
theorem effect_frame (i : Instr) (s : State) : SameStores s (effect i s) ∧ SameRun s (effect i s) := by
  obtain ⟨op, r1, r2, out, -, -, h⟩ | ⟨r1, r2, -, -, h⟩ | ⟨src, rd, -, h⟩ | ⟨k, -, h | h⟩ | ⟨r, -, h⟩ :=
    effect_cases i s <;> rw [h] <;> exact ⟨⟨rfl, rfl⟩, rfl, rfl, rfl⟩

/-- An instruction raises a fault only as a division by zero, and is then all it does. -/
theorem effect_result (i : Instr) (s : State) :
    (effect i s).result = s.result ∨
      ∃ r1 r2, i = .div r1 r2 ∧ (s.readReg r2).toNat = 0 ∧ effect i s = s.raise .divisionByZero := by
  obtain ⟨op, r1, r2, out, -, -, h⟩ | h | ⟨src, rd, -, h⟩ | ⟨k, -, h | h⟩ | ⟨r, -, h⟩ := effect_cases i s
  case inr.inl => exact Or.inr h
  all_goals exact Or.inl (by simp [h])

/-! ### One `Step()` -/

/-- What `stepOnce` answers, as a state. -/
def stepOnceState (s : State) : State :=
  match s.fetch with
  | none => s.idleStep
  | some line =>
    match s.decodeLine line with
    | .error kind => s.beginStep.raise kind
    | .ok i => effect i s.beginStep

theorem stepOnce_eq (s : State) : stepOnce s = .next (stepOnceState s) := by
  unfold stepOnce stepOnceState
  cases s.fetch with
  | none => rfl
  | some line =>
    dsimp only
    cases s.decodeLine line with
    | error kind => rfl
    | ok i => exact exec_eq_effect i s.beginStep

theorem stepOnceState_idle {s : State} (h : s.fetch = none) : stepOnceState s = s.idleStep := by
  simp [stepOnceState, h]

theorem stepOnceState_error {s : State} {line : Line} {k : ErrorKind} (h : s.fetch = some line)
    (hd : s.decodeLine line = .error k) : stepOnceState s = s.beginStep.raise k := by
  simp [stepOnceState, h, hd]

theorem stepOnceState_ok {s : State} {line : Line} {i : Instr} (h : s.fetch = some line)
    (hd : s.decodeLine line = .ok i) : stepOnceState s = effect i s.beginStep := by
  simp [stepOnceState, h, hd]

theorem stepOnceState_frame (s : State) :
    SameStores s (stepOnceState s) ∧ SameRun s (stepOnceState s) := by
  cases hf : s.fetch with
  | none => rw [stepOnceState_idle hf]; exact ⟨⟨rfl, rfl⟩, rfl, rfl, rfl⟩
  | some line =>
    cases hd : s.decodeLine line with
    | error k => rw [stepOnceState_error hf hd]; exact ⟨⟨rfl, rfl⟩, rfl, rfl, rfl⟩
    | ok i => rw [stepOnceState_ok hf hd]; exact effect_frame i s.beginStep

/-- The record a fetching step makes is that of the fetched line (60_exceptions.md R202). -/
theorem beginStep_faultRecord {s : State} {line : Line} (h : s.fetch = some line) (k : ErrorKind) :
    s.beginStep.faultRecord k =
      { kind := k, index := s.pc, opcode := (tokens line).head?, operands := (tokens line).tail, line := line } := by
  have h' : s.prog[s.pc]? = some line := h
  simp [State.faultRecord, h']

/-- A fetching step ends in `Ok`, or in a fault that leaves only the pc advance (R161, R203). -/
theorem stepOnceState_result {s : State} {line : Line} (hf : s.fetch = some line) :
    ((stepOnceState s).result = some .ok ∧ ∃ i, s.decodeLine line = .ok i) ∨
    ∃ k, stepOnceState s = s.beginStep.raise k ∧
      (s.decodeLine line = .error k ∨
        (k = .divisionByZero ∧ ∃ r1 r2, s.decodeLine line = .ok (.div r1 r2) ∧ (s.readReg r2).toNat = 0)) := by
  cases hd : s.decodeLine line with
  | error k => exact Or.inr ⟨k, stepOnceState_error hf hd, Or.inl rfl⟩
  | ok i =>
    rw [stepOnceState_ok hf hd]
    obtain h | ⟨r1, r2, rfl, hz, h⟩ := effect_result i s.beginStep
    · exact Or.inl ⟨h, i, rfl⟩
    · exact Or.inr ⟨_, h, Or.inr ⟨rfl, r1, r2, rfl, hz⟩⟩

/-! ### A `Step()` sees the architectural state only -/

theorem SameArch.regs_eq {s s' : State} (h : SameArch s s') : s'.regs = s.regs := RegFile.ext_get h.1

theorem SameArch.of_eq {s s' : State} (hr : s'.regs = s.regs) (hc : s'.carry = s.carry)
    (hz : s'.zero = s.zero) (hpc : s'.pc = s.pc) (hp : s'.prog = s.prog) (hl : s'.labels = s.labels) :
    SameArch s s' :=
  ⟨fun r => by rw [State.readReg, State.readReg, hr], ⟨hc, hz⟩, hpc, hp, hl⟩

theorem SameArch.refl (s : State) : SameArch s s := .of_eq rfl rfl rfl rfl rfl rfl

theorem SameArch.symm {s s' : State} (h : SameArch s s') : SameArch s' s :=
  .of_eq h.regs_eq.symm h.2.1.1.symm h.2.1.2.symm h.2.2.1.symm h.2.2.2.1.symm h.2.2.2.2.symm

theorem SameArch.trans {s s' s'' : State} (h : SameArch s s') (h' : SameArch s' s'') : SameArch s s'' :=
  .of_eq (h'.regs_eq.trans h.regs_eq) (h'.2.1.1.trans h.2.1.1) (h'.2.1.2.trans h.2.1.2)
    (h'.2.2.1.trans h.2.2.1) (h'.2.2.2.1.trans h.2.2.2.1) (h'.2.2.2.2.trans h.2.2.2.2)

theorem SameArch.fetch_eq {s s' : State} (h : SameArch s s') : s'.fetch = s.fetch := by
  rw [State.fetch, State.fetch, h.2.2.1, h.2.2.2.1]

theorem SameArch.idle_eq {s s' : State} (h : SameArch s s') : s'.idle = s.idle := by
  rw [State.idle, State.idle, h.2.2.1, h.2.2.2.1]

theorem SameArch.decodeLine_eq {s s' : State} (h : SameArch s s') (line : Line) :
    s'.decodeLine line = s.decodeLine line := by
  rw [State.decodeLine, State.decodeLine, h.2.2.2.1, h.2.2.2.2]

/-- An instruction does the same in two states of one architectural state. -/
theorem effect_congr {s s' : State} (h : SameArch s s') (hr : s'.result = s.result) (i : Instr) :
    SameArch (effect i s) (effect i s') ∧ (effect i s').result = (effect i s).result ∧
    ∃ new, (effect i s).outputs = s.outputs ++ new ∧ (effect i s').outputs = s'.outputs ++ new := by
  have hx := h.regs_eq
  obtain ⟨hg, ⟨hc, hz⟩, hpc, hp, hl⟩ := h
  have hg : ∀ r, s'.readReg r = s.readReg r := hg
  have hf : ∀ k, s'.faultRecord k = s.faultRecord k := by simp [State.faultRecord, hpc, hp]
  have stay : SameArch s s' := .of_eq hx hc hz hpc hp hl
  have jump : ∀ cond k, SameArch (execJump cond k s) (execJump cond k s') ∧
      (execJump cond k s').result = (execJump cond k s).result ∧
      ∃ new, (execJump cond k s).outputs = s.outputs ++ new ∧ (execJump cond k s').outputs = s'.outputs ++ new := by
    intro cond k
    have hcond : condHolds cond s' = condHolds cond s := by cases cond <;> simp [condHolds, hc, hz]
    unfold execJump
    rw [hcond]
    split
    · exact ⟨.of_eq hx hc hz rfl hp hl, hr, [], by simp, by simp⟩
    · exact ⟨stay, hr, [], by simp, by simp⟩
  have arith : ∀ op r1 r2, SameArch (execAlu op r1 r2 s) (execAlu op r1 r2 s') ∧
      (execAlu op r1 r2 s').result = (execAlu op r1 r2 s).result ∧
      ∃ new, (execAlu op r1 r2 s).outputs = s.outputs ++ new ∧ (execAlu op r1 r2 s').outputs = s'.outputs ++ new := by
    intro op r1 r2
    unfold execAlu
    rw [hg, hg, hc]
    split
    · exact ⟨.of_eq hx hc hz hpc hp hl, by simp [State.raise, hf], [], by simp, by simp⟩
    · exact ⟨.of_eq (by simp [hx]) rfl rfl hpc hp hl, hr, [], by simp, by simp⟩
  cases i with
  | add r1 r2 => exact arith _ _ _
  | sub r1 r2 => exact arith _ _ _
  | mul r1 r2 => exact arith _ _ _
  | div r1 r2 => exact arith _ _ _
  | load src rd =>
    have hv : srcValue src s' = srcValue src s := by cases src <;> simp [srcValue, hg]
    exact ⟨.of_eq (by simp [effect, hx, hv]) hc hz hpc hp hl, hr, [], by simp [effect], by simp [effect]⟩
  | jmp k => exact jump _ _
  | jz k => exact jump _ _
  | jnz k => exact jump _ _
  | jc k => exact jump _ _
  | jnc k => exact jump _ _
  | print r => exact ⟨.of_eq hx hc hz hpc hp hl, hr, [.print r (s.readReg r)], rfl, by rw [← hg]; rfl⟩

/-- A `Step()` does the same in two states of one architectural state: the same change of it, the same
result, the same events. -/
theorem stepOnceState_congr {s s' : State} (h : SameArch s s') :
    SameArch (stepOnceState s) (stepOnceState s') ∧
    (stepOnceState s').result = (stepOnceState s).result ∧
    ∃ new, (stepOnceState s).outputs = s.outputs ++ new ∧ (stepOnceState s').outputs = s'.outputs ++ new := by
  cases hf : s.fetch with
  | none =>
    rw [stepOnceState_idle hf, stepOnceState_idle (h.fetch_eq.trans hf)]
    exact ⟨.of_eq h.regs_eq h.2.1.1 h.2.1.2 h.2.2.1 h.2.2.2.1 h.2.2.2.2, rfl, [],
      by simp [State.idleStep], by simp [State.idleStep]⟩
  | some line =>
    have hf' := h.fetch_eq.trans hf
    have hb : SameArch s.beginStep s'.beginStep :=
      .of_eq h.regs_eq h.2.1.1 h.2.1.2 (by simp [h.2.2.1]) h.2.2.2.1 h.2.2.2.2
    cases hd : s.decodeLine line with
    | error k =>
      rw [stepOnceState_error hf hd, stepOnceState_error hf' ((h.decodeLine_eq line).trans hd)]
      refine ⟨.of_eq hb.regs_eq hb.2.1.1 hb.2.1.2 hb.2.2.1 hb.2.2.2.1 hb.2.2.2.2, ?_, [], by simp, by simp⟩
      rw [State.raise, State.raise, beginStep_faultRecord hf, beginStep_faultRecord hf', h.2.2.1]
    | ok i =>
      rw [stepOnceState_ok hf hd, stepOnceState_ok hf' ((h.decodeLine_eq line).trans hd)]
      exact effect_congr hb rfl i

/-! ### One turn of the run loop -/

/-- The run loop after a step changes nothing but the host's side. -/
theorem afterStep_arch (stop cancel : Bool) (ses : Session) (t : State) :
    (afterStep stop cancel ses t).regs = t.regs ∧ (afterStep stop cancel ses t).carry = t.carry ∧
    (afterStep stop cancel ses t).zero = t.zero ∧ (afterStep stop cancel ses t).pc = t.pc ∧
    (afterStep stop cancel ses t).prog = t.prog ∧ (afterStep stop cancel ses t).labels = t.labels ∧
    (afterStep stop cancel ses t).result = t.result := by
  unfold afterStep State.trace
  split
  · exact ⟨rfl, rfl, rfl, rfl, rfl, rfl, rfl⟩
  · dsimp only
    split <;> split <;> first | exact ⟨rfl, rfl, rfl, rfl, rfl, rfl, rfl⟩ | (split <;> exact ⟨rfl, rfl, rfl, rfl, rfl, rfl, rfl⟩)

@[simp] theorem afterStep_regs (stop cancel : Bool) (ses : Session) (t : State) :
    (afterStep stop cancel ses t).regs = t.regs := (afterStep_arch stop cancel ses t).1
@[simp] theorem afterStep_carry (stop cancel : Bool) (ses : Session) (t : State) :
    (afterStep stop cancel ses t).carry = t.carry := (afterStep_arch stop cancel ses t).2.1
@[simp] theorem afterStep_zero (stop cancel : Bool) (ses : Session) (t : State) :
    (afterStep stop cancel ses t).zero = t.zero := (afterStep_arch stop cancel ses t).2.2.1
@[simp] theorem afterStep_pc (stop cancel : Bool) (ses : Session) (t : State) :
    (afterStep stop cancel ses t).pc = t.pc := (afterStep_arch stop cancel ses t).2.2.2.1
@[simp] theorem afterStep_prog (stop cancel : Bool) (ses : Session) (t : State) :
    (afterStep stop cancel ses t).prog = t.prog := (afterStep_arch stop cancel ses t).2.2.2.2.1
@[simp] theorem afterStep_labels (stop cancel : Bool) (ses : Session) (t : State) :
    (afterStep stop cancel ses t).labels = t.labels := (afterStep_arch stop cancel ses t).2.2.2.2.2.1
@[simp] theorem afterStep_result (stop cancel : Bool) (ses : Session) (t : State) :
    (afterStep stop cancel ses t).result = t.result := (afterStep_arch stop cancel ses t).2.2.2.2.2.2

theorem afterStep_fault {stop cancel : Bool} {ses : Session} {t : State} {f : FaultRecord}
    (h : t.result = some (.fault f)) :
    afterStep stop cancel ses t = t.endRun (.faulted f) ses.steps := by
  simp [afterStep, h]

/-- The run loop after a completed step (44_engine.md R165). -/
theorem afterStep_ok {stop cancel : Bool} {ses : Session} {t : State} (h : t.result = some .ok) :
    afterStep stop cancel ses t =
      if (ses.traceEnabled && stop) || cancel then
        { t.trace ses.count with draws := t.draws + 1 }.endRun .cancelled ses.count.steps
      else { t.trace ses.count with draws := t.draws + 1, session := some ses.count } := by
  simp only [afterStep, h]
  cases (ses.traceEnabled && stop) <;> cases cancel <;> rfl

/-- What `runTurn` answers, as a state. -/
def runTurnState (stop cancel : Bool) (ses : Session) (s : State) : State :=
  if s.idle then s.endRun .halted ses.steps
  else if ses.maxSteps ≤ ses.steps then s.endRun .budgetExhausted ses.steps
  else afterStep stop cancel ses (stepOnceState s)

theorem runTurn_eq (stop cancel : Bool) (ses : Session) (s : State) :
    runTurn stop cancel ses s = .next (runTurnState stop cancel ses s) := by
  unfold runTurn runTurnState
  rw [stepOnce_eq]
  split
  · rfl
  · split <;> rfl

/-- What `step` answers, as a state. -/
def stepState (s : State) : State :=
  match s.session with
  | none => stepOnceState s
  | some ses => runTurnState (Config.observerStop s.draws) (Config.cancelRequested s.draws) ses s

theorem step_eq (s : State) : step s = .next (stepState s) := by
  unfold step stepState
  cases s.session with
  | none => exact stepOnce_eq s
  | some ses => exact runTurn_eq _ _ ses s

/-- Everything a step can do: make a `Step()` directly, end the run before one, or make one in a run. -/
theorem stepState_cases (s : State) :
    (s.session = none ∧ stepState s = stepOnceState s) ∨
    (¬ s.willStep ∧ ∃ ses kind, s.session = some ses ∧ stepState s = s.endRun kind ses.steps) ∨
    (s.willStep ∧ ∃ ses stop cancel, s.session = some ses ∧ ses.steps < ses.maxSteps ∧
      stepState s = afterStep stop cancel ses (stepOnceState s)) := by
  unfold stepState
  cases hs : s.session with
  | none => exact Or.inl ⟨rfl, rfl⟩
  | some ses =>
    refine Or.inr ?_
    dsimp only [runTurnState]
    cases hi : s.idle with
    | true => exact Or.inl ⟨fun h => by simp [State.willStep, hi] at h, ses, _, rfl, rfl⟩
    | false =>
      by_cases hb : ses.maxSteps ≤ ses.steps
      · refine Or.inl ⟨fun h => ?_, ses, .budgetExhausted, rfl, by simp [hb]⟩
        have := h.2 ses hs
        omega
      · refine Or.inr ⟨⟨hi, fun ses' hs' => ?_⟩, ses, _, _, rfl, by omega, by simp [hb]; rfl⟩
        rw [hs] at hs'
        cases hs'
        omega

/-- The architectural side of a step that makes a `Step()` is that of the `Step()`. -/
theorem stepState_arch {s : State} (h : s.willStep) :
    (stepState s).regs = (stepOnceState s).regs ∧ (stepState s).carry = (stepOnceState s).carry ∧
    (stepState s).zero = (stepOnceState s).zero ∧ (stepState s).pc = (stepOnceState s).pc := by
  obtain ⟨-, h'⟩ | ⟨hn, -⟩ | ⟨-, ses, stop, cancel, -, -, h'⟩ := stepState_cases s
  · simp [h']
  · exact absurd h hn
  · simp [h']

/-- A step that makes no `Step()`, or makes it while Idle, changes nothing architectural. -/
theorem stepState_arch_not {s : State} (h : ¬ s.willStep) :
    (stepState s).regs = s.regs ∧ (stepState s).carry = s.carry ∧
    (stepState s).zero = s.zero ∧ (stepState s).pc = s.pc ∧ (stepState s).outputs = s.outputs := by
  obtain ⟨hs, h'⟩ | ⟨-, ses, kind, -, h'⟩ | ⟨hw, -⟩ := stepState_cases s
  · have hi : s.idle = true := by
      by_contra hi
      exact h ⟨by simpa using hi, by simp [hs]⟩
    rw [h', stepOnceState_idle ((fetch_none_iff s).2 hi)]
    exact ⟨rfl, rfl, rfl, rfl, rfl⟩
  · rw [h']; exact ⟨rfl, rfl, rfl, rfl, rfl⟩
  · exact absurd hw h

end Sys2Proof.Machine
end

