-- ==== Sys2Proof/Laws/Engine.lean ====
section
/-! SUPPORT. The turns of the run loop: everything one turn can do, several turns as a function of
states (44_engine.md R165), and the steps a run completes. -/

namespace Sys2Proof.Machine

/-- Everything one turn of the run loop can do: end the run before a step, end it with the step's
fault, or complete the step and then stop or go on. -/
theorem runTurnState_cases (stop cancel : Bool) (ses : Session) (s : State) :
    (s.idle = true ∧ runTurnState stop cancel ses s = s.endRun .halted ses.steps) ∨
    (s.idle = false ∧ ses.maxSteps ≤ ses.steps ∧
      runTurnState stop cancel ses s = s.endRun .budgetExhausted ses.steps) ∨
    (s.idle = false ∧ ses.steps < ses.maxSteps ∧ ∃ k, stepOnceState s = s.beginStep.raise k ∧
      runTurnState stop cancel ses s =
        (s.beginStep.raise k).endRun (.faulted (s.beginStep.faultRecord k)) ses.steps) ∨
    (s.idle = false ∧ ses.steps < ses.maxSteps ∧ (stepOnceState s).result = some .ok ∧
      runTurnState stop cancel ses s =
        if (ses.traceEnabled && stop) || cancel then
          { (stepOnceState s).trace ses.count with
            draws := (stepOnceState s).draws + 1 }.endRun .cancelled ses.count.steps
        else
          { (stepOnceState s).trace ses.count with
            draws := (stepOnceState s).draws + 1, session := some ses.count }) := by
  cases hi : s.idle with
  | true => exact Or.inl ⟨rfl, by simp [runTurnState, hi]⟩
  | false =>
    by_cases hb : ses.maxSteps ≤ ses.steps
    · exact Or.inr (Or.inl ⟨rfl, hb, by simp [runTurnState, hi, hb]⟩)
    · have hlt : ses.steps < ses.maxSteps := Nat.lt_of_not_le hb
      have hr : runTurnState stop cancel ses s = afterStep stop cancel ses (stepOnceState s) := by
        simp [runTurnState, hi, hb]
      obtain ⟨line, hf⟩ := fetch_of_not_idle hi
      obtain ⟨h, -⟩ | ⟨k, h, -⟩ := stepOnceState_result hf
      · exact Or.inr (Or.inr (Or.inr ⟨rfl, hlt, h, by rw [hr, afterStep_ok h]⟩))
      · exact Or.inr (Or.inr (Or.inl ⟨rfl, hlt, k, h, by
          rw [hr, afterStep_fault (f := s.beginStep.faultRecord k) (by rw [h]; rfl), h]⟩))

/-- What `runTurns` answers, as a state. -/
def turns (stops cancels : Nat → Bool) : Nat → State → State
  | 0, s => s
  | k + 1, s =>
    match s.session with
    | none => s
    | some ses => turns stops cancels k (runTurnState (stops (ses.steps + 1)) (cancels (ses.steps + 1)) ses s)

theorem runTurns_eq (stops cancels : Nat → Bool) (k : Nat) (s : State) :
    runTurns stops cancels k s = .next (turns stops cancels k s) := by
  induction k generalizing s with
  | zero => rfl
  | succ k ih =>
    unfold runTurns turns
    cases s.session with
    | none => rfl
    | some ses =>
      simp only [runTurn_eq]
      exact ih _

/-- A run that has ended makes no more turns. -/
theorem turns_ended {stops cancels : Nat → Bool} {k : Nat} {s : State} (h : s.session = none) :
    turns stops cancels k s = s := by
  cases k <;> simp [turns, h]

/-- One more turn of a run in progress. -/
theorem turns_succ {stops cancels : Nat → Bool} {k : Nat} {s : State} {ses : Session}
    (h : s.session = some ses) :
    turns stops cancels (k + 1) s =
      turns stops cancels k (runTurnState (stops (ses.steps + 1)) (cancels (ses.steps + 1)) ses s) := by
  simp [turns, h]

/-! ### Completed steps -/

@[simp] theorem completedSteps_zero (s u : State) : CompletedSteps 0 s u ↔ u = s := Iff.rfl

@[simp] theorem completedSteps_succ (n : Nat) (s u : State) :
    CompletedSteps (n + 1) s u ↔
      (stepOnceState s).result = some .ok ∧ CompletedSteps n (stepOnceState s) u := by
  simp [CompletedSteps, stepOnce_eq]

/-- Completed steps leave the program store and the label table as they were. -/
theorem CompletedSteps.stores {n : Nat} {s u : State} (h : CompletedSteps n s u) : SameStores s u := by
  induction n generalizing s with
  | zero => cases h; exact ⟨rfl, rfl⟩
  | succ n ih =>
    have hu := ih ((completedSteps_succ n s u).1 h).2
    have hs := (stepOnceState_frame s).1
    exact ⟨hu.1.trans hs.1, hu.2.trans hs.2⟩

/-- Two states of one architectural state complete the same steps. -/
theorem CompletedSteps.congr {n : Nat} {s s' u : State} (h : SameArch s s') (hc : CompletedSteps n s u) :
    ∃ u', CompletedSteps n s' u' ∧ SameArch u u' := by
  induction n generalizing s s' with
  | zero => cases hc; exact ⟨s', rfl, h⟩
  | succ n ih =>
    obtain ⟨hr, hc⟩ := (completedSteps_succ n s u).1 hc
    obtain ⟨h', hr', -⟩ := stepOnceState_congr h
    obtain ⟨u', hu, ha⟩ := ih h' hc
    exact ⟨u', (completedSteps_succ n s' u').2 ⟨hr'.trans hr, hu⟩, ha⟩

/-- A snapshot shows every state of the architectural state it was taken in. -/
theorem snapshot_shows {s u : State} (h : SameArch u s) (ses : Session) : (s.snapshot ses).Shows u :=
  ⟨h.1 .A, h.1 .B, h.1 .C, h.1 .D, h.1 .RES, h.2.2.1, h.2.1.1, h.2.1.2⟩

/-- The trace leaves the architectural state as it was. -/
theorem trace_arch (s : State) (ses : Session) : SameArch s (s.trace ses) := by
  unfold State.trace
  split
  · exact .of_eq rfl rfl rfl rfl rfl rfl
  · exact .refl s

/-! ### The host's answers for two runs as one -/

theorem answersAfter_before {n k : Nat} (h : k ≤ n) (f : Nat → Bool) : answersAfter n f k = false := by
  simp [answersAfter, Nat.not_lt.2 h]

theorem answersAfter_later (n j : Nat) (f : Nat → Bool) : answersAfter n f (n + j + 1) = f (j + 1) := by
  rw [answersAfter, Nat.add_assoc, Nat.add_sub_cancel_left]
  simp

end Sys2Proof.Machine
end

