-- ==== Sys2Proof/Laws/Loader.lean ====
section
/-! SUPPORT. The label table's operations keep its form, the loader in parts, and the storing of a line. -/

namespace Sys2Proof.Machine

/-! ### The label table (20_memory.md R44) -/

theorem labelLookup_bindLabel_self (labels : LabelTable) (name : Token) (i : Nat) :
    labelLookup (bindLabel labels name i) name = some i := by
  simp [bindLabel, labelLookup]

theorem labelLookup_filter {labels : LabelTable} {name tok : Token} (h : name ≠ tok) :
    labelLookup (labels.filter (fun p => decide (p.1 ≠ name))) tok = labelLookup labels tok := by
  induction labels with
  | nil => rfl
  | cons p ps ih =>
    obtain ⟨a, i⟩ := p
    by_cases ha : a = name
    · rw [List.filter_cons_of_neg (by simp [ha]), ih, labelLookup, if_neg (ha ▸ h)]
    · rw [List.filter_cons_of_pos (by simp [ha]), labelLookup, labelLookup, ih]

theorem labelLookup_bindLabel_other {labels : LabelTable} {name tok : Token} (i : Nat) (h : name ≠ tok) :
    labelLookup (bindLabel labels name i) tok = labelLookup labels tok := by
  rw [bindLabel, labelLookup, if_neg h, labelLookup_filter h]

/-- Binding a label keeps every name bound once. -/
theorem bindLabel_nodup {labels : LabelTable} (name : Token) (i : Nat) (h : (labels.map Prod.fst).Nodup) :
    ((bindLabel labels name i).map Prod.fst).Nodup := by
  rw [bindLabel, List.map_cons, List.nodup_cons]
  exact ⟨by simp, h.sublist (List.filter_sublist.map _)⟩

/-- Binding a label to an index in range keeps every index in range. -/
theorem bindLabel_range {labels : LabelTable} {n : Nat} (name : Token) {i : Nat} (hi : i ≤ n)
    (h : ∀ p ∈ labels, p.2 ≤ n) : ∀ p ∈ bindLabel labels name i, p.2 ≤ n := by
  intro p hp
  obtain rfl | hp := List.mem_cons.1 hp
  · exact hi
  · exact h p (List.mem_of_mem_filter hp)

/-! ### The loader (30_encoding.md R84 to R87) -/

/-- The loader on a text in two parts. -/
theorem loadLines_append (pre post : List Line) (prog : List Line) (labels : LabelTable) :
    loadLines prog labels (pre ++ post) =
      loadLines (loadLines prog labels pre).1 (loadLines prog labels pre).2 post := by
  induction pre generalizing prog labels with
  | nil => rfl
  | cons l ls ih =>
    rw [List.cons_append, loadLines, loadLines]
    cases classify l <;> exact ih _ _

theorem dropWhile_gap {w : Line} (h : w.all isSpace = true) (a : Line) :
    (w ++ a).dropWhile isSpace = a.dropWhile isSpace := by
  induction w with
  | nil => rfl
  | cons c cs ih =>
    rw [List.all_cons, Bool.and_eq_true] at h
    rw [List.cons_append, List.dropWhile_cons_of_pos h.1, ih h.2]

theorem trimRight_gap {w : Line} (h : w.all isSpace = true) (a : Line) : trimRight (a ++ w) = trimRight a := by
  rw [trimRight, trimRight, List.reverse_append, dropWhile_gap (by rw [List.all_reverse]; exact h)]

theorem dropWhile_eq_self {l : Line} (h : ∀ c, l.head? = some c → isSpace c = false) :
    l.dropWhile isSpace = l := by
  cases l with
  | nil => rfl
  | cons c cs => rw [List.dropWhile_cons_of_neg (by simp [h c rfl])]

theorem trimRight_eq_self {l : Line} (h : ∀ c, l.getLast? = some c → isSpace c = false) : trimRight l = l := by
  rw [trimRight, dropWhile_eq_self (by rw [List.head?_reverse]; exact h), List.reverse_reverse]

/-- A line is what trimming leaves of it, which does not end in whitespace, and whitespace. -/
theorem trimRight_split (l : Line) : ∃ w : Line, l = trimRight l ++ w ∧ w.all isSpace = true ∧
    ∀ c, (trimRight l).getLast? = some c → isSpace c = false := by
  refine ⟨(l.reverse.takeWhile isSpace).reverse, ?_, by rw [List.all_reverse]; simp, fun c hc => ?_⟩
  · rw [trimRight, ← List.reverse_append, List.takeWhile_append_dropWhile, List.reverse_reverse]
  · rw [trimRight, List.getLast?_reverse] at hc
    simpa [hc] using List.head?_dropWhile_not isSpace l.reverse

/-- What makes a source line a label declaration (30_encoding.md R86). -/
theorem classify_label_iff (l : Line) (name : Token) : classify l = .label name ↔
    (cleanLine l).getLast? = some ':' ∧ trimRight (cleanLine l).dropLast = name := by
  unfold classify
  cases (cleanLine l).getLast? with
  | none => simp
  | some c => by_cases hc : c = ':' <;> simp [hc]

/-! ### Storing a line -/

theorem storeLine_self (prog : List Line) (i : Nat) (line : Line) :
    (storeLine prog i line)[i]? = some line := by
  rw [storeLine, List.getElem?_set_self]
  simp
  omega

theorem storeLine_other (prog : List Line) {i j : Nat} (line line' : Line) (hj : j ≠ i)
    (h : prog[j]? = some line') : (storeLine prog i line)[j]? = some line' := by
  rw [storeLine, List.getElem?_set_ne (Ne.symm hj),
    List.getElem?_append_left (List.getElem?_eq_some_iff.1 h).1, h]

end Sys2Proof.Machine
end

