-- ==== Sys2Proof/Laws/PerInstr.lean ====
section
/-! SUPPORT. Facts of every instruction as syntax, one lemma per constructor of Instr. Family
EncodingTokens: the line an instruction is encoded as has the opcode's mnemonic and the operand
tokens as its tokens (30_encoding.md R61, R74, R80). -/

namespace Sys2Proof.Laws.EncodingTokens

/-- The tokens of an instruction's line are its mnemonic and its operand tokens. -/
def Statement (i : Instr) : Prop := tokens (encode i) = i.opcode.mnemonic :: i.operandTokens

/-- It is enough that the operand tokens are tokens. -/
theorem of_operands (i : Instr) (h : ∀ t ∈ i.operandTokens, IsToken t) : Statement i :=
  tokens_joinTokens _ fun t ht => by
    obtain rfl | ht := List.mem_cons.1 ht
    · exact isToken_mnemonic _
    · exact h t ht

theorem of_two (t1 t2 : Token) (h1 : IsToken t1) (h2 : IsToken t2) : ∀ t ∈ [t1, t2], IsToken t := by
  simp [h1, h2]

theorem of_one (t1 : Token) (h1 : IsToken t1) : ∀ t ∈ [t1], IsToken t := by
  simp [h1]

theorem add (r1 r2 : RegName) : Statement (.add r1 r2) :=
  of_operands _ (of_two _ _ (isToken_regName r1) (isToken_regName r2))

theorem sub (r1 r2 : RegName) : Statement (.sub r1 r2) :=
  of_operands _ (of_two _ _ (isToken_regName r1) (isToken_regName r2))

theorem mul (r1 r2 : RegName) : Statement (.mul r1 r2) :=
  of_operands _ (of_two _ _ (isToken_regName r1) (isToken_regName r2))

theorem div (r1 r2 : RegName) : Statement (.div r1 r2) :=
  of_operands _ (of_two _ _ (isToken_regName r1) (isToken_regName r2))

theorem load (src : Src) (rd : RegName) : Statement (.load src rd) :=
  of_operands _ (of_two _ _ (isToken_src src) (isToken_regName rd))

theorem jmp (target : Nat) : Statement (.jmp target) := of_operands _ (of_one _ (isToken_decimal target))

theorem jz (target : Nat) : Statement (.jz target) := of_operands _ (of_one _ (isToken_decimal target))

theorem jnz (target : Nat) : Statement (.jnz target) := of_operands _ (of_one _ (isToken_decimal target))

theorem jc (target : Nat) : Statement (.jc target) := of_operands _ (of_one _ (isToken_decimal target))

theorem jnc (target : Nat) : Statement (.jnc target) := of_operands _ (of_one _ (isToken_decimal target))

theorem print (r : RegName) : Statement (.print r) := of_operands _ (of_one _ (isToken_regName r))

end Sys2Proof.Laws.EncodingTokens
end

