-- ==== Sys2Proof/Tests/Slice0.lean ====
section
/-! SUPPORT. Tests with expected results from the spec's own vectors (95_test_vectors.md) and encodings,
and a witness for the hypotheses of every statement that has any. -/

namespace Sys2Proof.Tests

open Sys2Proof Sys2Proof.Machine

/-! ### Helpers -/

/-- A line from its text. -/
def ln (text : String) : Line := text.toList

/-- The reset state with a program and a label table loaded. -/
def mk (prog : List String) (labels : List (String × Nat) := []) : State :=
  { State.reset with prog := prog.map ln, labels := labels.map (fun p => (ln p.1, p.2)) }

/-- A state with A and B set. -/
def withAB (a b : Byte) (s : State) : State := { s with regs := { s.regs with a := a, b := b } }

/-- The same state in a run with a budget, `steps` of it used. -/
def inRun (steps maxSteps : Nat) (traced : Bool) (s : State) : State :=
  { s with session := some { steps := steps, maxSteps := maxSteps, traceEnabled := traced, stepDelay := 0 } }

/-- The next state of an outcome. -/
def nextOf : Host.Outcome State Fault Refusal → Option State
  | .next s => some s
  | .fault _ => none
  | .refused _ => none

/-- The result and the flags an instruction leaves. -/
def resFlags (o : Host.Outcome State Fault Refusal) : Option (Nat × Bool × Bool) :=
  (nextOf o).map (fun t => ((t.readReg .RES).toNat, t.carry, t.zero))

/-- The pc and the kind of fault a step leaves. -/
def pcFault (o : Host.Outcome State Fault Refusal) : Option (Nat × Option ErrorKind) :=
  (nextOf o).map (fun t => (t.pc, match t.result with | some (.fault f) => some f.kind | _ => none))

/-- No register is spelt `X`. -/
theorem noRegister_X : NoRegister (ln "X") := by
  intro r
  cases r <;> decide

/-! ### Well-formedness: an ill-formed term for each check (30_encoding.md R68, R71) -/

theorem test_wf_jmp_refused : (Instr.jmp 7).wellFormed .everywhere 6 = false := by decide
theorem test_wf_jz_refused : (Instr.jz 7).wellFormed .everywhere 6 = false := by decide
theorem test_wf_jnz_refused : (Instr.jnz 7).wellFormed .everywhere 6 = false := by decide
theorem test_wf_jc_refused : (Instr.jc 7).wellFormed .everywhere 6 = false := by decide
theorem test_wf_jnc_refused : (Instr.jnc 7).wellFormed .everywhere 6 = false := by decide
theorem test_wf_load_res_readOnly_refused : (Instr.load (.imm 5) .RES).wellFormed .readOnly 6 = false := by decide
theorem test_wf_jmp_to_N_accepted : (Instr.jmp 6).wellFormed .everywhere 6 = true := by decide

/-! ### Decoding: the characters of each line written out as a word, first character lowest (R74, R80) -/

/-- "ADD A B": 41 44 44 20 41 20 42. -/
theorem test_decode_add : decodeTableWord 56 0x42204120444441 = some (.add .A .B) := by decide
/-- "SUB RES C": 53 55 42 20 52 45 53 20 43. -/
theorem test_decode_sub : decodeTableWord 72 0x432053455220425553 = some (.sub .RES .C) := by decide
/-- "MUL A A": 4D 55 4C 20 41 20 41. -/
theorem test_decode_mul : decodeTableWord 56 0x412041204C554D = some (.mul .A .A) := by decide
/-- "DIV C B": 44 49 56 20 43 20 42. -/
theorem test_decode_div : decodeTableWord 56 0x42204320564944 = some (.div .C .B) := by decide
/-- "LOAD 200 A": 4C 4F 41 44 20 32 30 30 20 41. -/
theorem test_decode_load : decodeTableWord 80 0x41203030322044414F4C = some (.load (.imm 200) .A) := by decide
/-- "JMP 1": 4A 4D 50 20 31. -/
theorem test_decode_jmp : decodeTableWord 40 0x3120504D4A = some (.jmp 1) := by decide
/-- "JZ 0": 4A 5A 20 30. -/
theorem test_decode_jz : decodeTableWord 32 0x30205A4A = some (.jz 0) := by decide
/-- "JNZ 1": 4A 4E 5A 20 31. -/
theorem test_decode_jnz : decodeTableWord 40 0x31205A4E4A = some (.jnz 1) := by decide
/-- "JC 1": 4A 43 20 31. -/
theorem test_decode_jc : decodeTableWord 32 0x3120434A = some (.jc 1) := by decide
/-- "JNC 0": 4A 4E 43 20 30. -/
theorem test_decode_jnc : decodeTableWord 40 0x3020434E4A = some (.jnc 0) := by decide
/-- "PRINT RES": 50 52 49 4E 54 20 52 45 53. -/
theorem test_decode_print : decodeTableWord 72 0x53455220544E495250 = some (.print .RES) := by decide

/-- 95_test_vectors.md §2.8. -/
theorem test_decode_whitespace : decode [] 6 (ln "ADD  A\tB  ") = .ok (.add .A .B) := by rfl
theorem test_decode_errors :
    decode [] 6 (ln "FOO A B C D") = .error .unknownOpcode ∧ decode [] 6 (ln "   ") = .error .malformedInstruction ∧
    decode [] 6 (ln "ADD X Y Z") = .error .malformedInstruction ∧ decode [] 6 (ln "DIV X A") = .error .unknownRegister ∧
    decode [] 6 (ln "LOAD -1 A") = .error .unknownRegister ∧ decode [] 6 (ln "LOAD 5 a") = .error .unknownRegister := by
  exact ⟨rfl, rfl, rfl, rfl, rfl, rfl⟩
/-- 41_load.md R120 and 10_state.md R22: RES as LOAD's destination, under each policy. -/
theorem test_decode_load_res :
    decode [] 6 (ln "LOAD 7 RES") = .ok (.load (.imm 7) .RES) ∧
    decodeWith .readOnly [] 6 (ln "LOAD 7 RES") = .error .unknownRegister := by
  exact ⟨rfl, rfl⟩
theorem test_encode_load : encode (.load (.imm 300) .B) = ln "LOAD 300 B" := by decide

/-! ### The instructions (95_test_vectors.md §2.1 to §2.7) -/

theorem test_add_carry : resFlags (exec (.add .A .B) (withAB 200 100 (mk []))) = some (44, true, false) := by decide
theorem test_add_wraps_to_zero : resFlags (exec (.add .A .B) (withAB 255 1 (mk []))) = some (0, true, true) := by decide
theorem test_sub_borrow : resFlags (exec (.sub .A .B) (withAB 3 5 (mk []))) = some (254, true, false) := by decide
theorem test_sub_zero_minus_255 : resFlags (exec (.sub .A .B) (withAB 0 255 (mk []))) = some (1, true, false) := by decide
theorem test_mul_overflow : resFlags (exec (.mul .A .B) (withAB 255 255 (mk []))) = some (1, true, false) := by decide
theorem test_mul_256 : resFlags (exec (.mul .A .A) (withAB 16 0 (mk []))) = some (0, true, true) := by decide
theorem test_div_keeps_carry :
    resFlags (exec (.div .A .B) { withAB 200 100 (mk []) with carry := true }) = some (2, true, false) := by decide
/-- §2.4 in full: RES = 77, c = T, z = F, A = 5, B = 0, `DIV A B` at index 3. -/
theorem test_div_by_zero :
    let s := { withAB 5 0 (mk ["", "", "", "DIV A B", ""]) with
      pc := 3, carry := true, regs := { a := 5, b := 0, c := 0, d := 0, res := 77 } }
    nextOf (step s) = some { s with
      pc := 4
      result := some (.fault { kind := .divisionByZero, index := 3, opcode := some (ln "DIV"),
                               operands := [ln "A", ln "B"], line := ln "DIV A B" }) } := by decide
theorem test_load_masks :
    (nextOf (exec (.load (.imm 300) .A) (mk []))).map (fun t => (t.readReg .A).toNat) = some 44 := by decide
theorem test_load_res_keeps_zero :
    resFlags (exec (.load (.imm 7) .RES) { mk [] with carry := true, zero := true }) = some (7, true, true) := by decide
theorem test_jmp_label_over_literal :
    pcFault (step { mk ["", "", "JMP 3", "", "", ""] [("L", 4), ("end", 6), ("3", 5)] with pc := 2 }) = some (5, none) := by
  decide
theorem test_jmp_beyond_end :
    pcFault (step { mk ["", "", "JMP 7", "", "", ""] with pc := 2 }) = some (3, some .invalidJumpTarget) := by decide
theorem test_jz_taken :
    pcFault (step { mk ["", "", "JZ L", "", "", ""] [("L", 4)] with pc := 2, zero := true }) = some (4, none) := by decide
theorem test_jz_untaken_target_checked :
    pcFault (step { mk ["", "", "JZ foo", "", "", ""] with pc := 2 }) = some (3, some .invalidJumpTarget) := by decide
theorem test_jnz_not_taken :
    pcFault (step { mk ["", "", "JNZ L", "", "", ""] [("L", 4)] with pc := 2, zero := true }) = some (3, none) := by decide
theorem test_jc_taken :
    pcFault (step { mk ["", "", "JC L", "", "", ""] [("L", 4)] with pc := 2, carry := true }) = some (4, none) := by decide
theorem test_jnc_taken_to_end :
    pcFault (step { mk ["", "", "JNC 6", "", "", ""] with pc := 2 }) = some (6, none) := by decide
theorem test_print_event :
    (nextOf (step (withAB 9 0 (mk ["PRINT A"])))).map printPort = some [(.A, 9)] := by decide

/-! ### The loader, program load and the engine (§2.9, §2.10, P4, P5) -/

theorem test_loader :
    loadSourceText ([ "; demo", "start:", "   LOAD 5 A   ; five", "", "ADD A A", "end:"].map ln) =
      ([ln "LOAD 5 A", ln "ADD A A"], [(ln "end", 2), (ln "start", 0)]) := by decide
theorem test_loader_later_label_wins :
    labelLookup (loadSourceText (["x:", "ADD A A", "x:"].map ln)).2 (ln "x") = some 1 := by decide
theorem test_load_refused :
    loadProgram [ln "JMP x"] [(ln "x", 2)] (withAB 9 0 (mk ["ADD A B"])) = (.refused, withAB 9 0 (mk ["ADD A B"])) := by
  decide
theorem test_load_keeps_registers_and_flags :
    let t := (loadProgram [ln "JZ 2"] [] { withAB 9 0 (mk []) with pc := 8, zero := true }).2
    (t.pc, (t.readReg .A).toNat, t.zero) = (0, 9, true) := by decide
theorem test_step_idle : (nextOf (step State.reset)) = some { State.reset with result := some .idle } := by decide
theorem test_run_zero_budget :
    (nextOf (run { maxSteps := 0, traceEnabled := false, stepDelay := 0 } (fun _ => false) (fun _ => false)
      (mk ["LOAD 1 A"]))).map State.outcome = some (some { kind := .budgetExhausted, steps := 0 }) := by decide
theorem test_run_range_before_budget :
    (nextOf (run { maxSteps := 1, traceEnabled := false, stepDelay := 0 } (fun _ => false) (fun _ => false)
      (mk ["LOAD 1 A"]))).map State.outcome = some (some { kind := .halted, steps := 1 }) := by decide
theorem test_run_cancel_on_the_last_step :
    (nextOf (run { maxSteps := 5, traceEnabled := false, stepDelay := 0 } (fun _ => false) (fun _ => true)
      (mk ["LOAD 1 A"]))).map (fun t => (t.outcome, t.pc)) = some (some { kind := .cancelled, steps := 1 }, 1) := by decide
/-- P4, snapshot 1. -/
theorem test_first_snapshot :
    (nextOf (runTurn false false { steps := 0, maxSteps := 500, traceEnabled := true, stepDelay := 0 }
      (mk ["LOAD 5 A", "LOAD 1 B", "ADD A B", "PRINT RES"]))).map tracePort =
    some [{ step := 1, maxSteps := 500, a := 5, b := 0, c := 0, d := 0, res := 0, pc := 1, carry := false, zero := false }] := by
  decide
theorem test_fault_codes :
    [ErrorKind.unknownOpcode, .unknownRegister, .malformedInstruction, .divisionByZero, .invalidJumpTarget].map faultCode =
      [1, 2, 3, 4, 5] := by decide
/-- "LOAD 5 A" stored at pc of the reset state runs in the next step. -/
theorem test_fetch_word_runs :
    (nextOf (step (State.reset.withFetchWord 64 0x412035204441_4F4C))).map (fun t => ((t.readReg .A).toNat, t.pc)) =
      some (5, 1) := by decide

/-! ### Witnesses: the hypotheses of each statement are met together -/

/-- The lines of one opcode of format RR: a wrong count, two registers, a bad first and a bad second
operand. -/
def RRLines (op : String) : Prop :=
  (∃ ops, tokens (ln (op ++ " A")) = ln op :: ops ∧ ops.length ≠ 2) ∧
  tokens (ln (op ++ " A RES")) = [ln op, RegName.A.spelling, RegName.RES.spelling] ∧
  (tokens (ln (op ++ " X A")) = [ln op, ln "X", ln "A"] ∧ NoRegister (ln "X")) ∧
  (tokens (ln (op ++ " A X")) = [ln op, ln "A", ln "X"] ∧ NoRegister (ln "X"))

theorem witness_AddPutsTheSumInResAndSetsBothFlags : RRLines "ADD" :=
  ⟨⟨_, rfl, by decide⟩, rfl, ⟨rfl, noRegister_X⟩, ⟨rfl, noRegister_X⟩⟩

theorem witness_SubPutsTheDifferenceInResAndBorrowInCarry : RRLines "SUB" :=
  ⟨⟨_, rfl, by decide⟩, rfl, ⟨rfl, noRegister_X⟩, ⟨rfl, noRegister_X⟩⟩

theorem witness_MulPutsTheLowByteInResAndOverflowInCarry : RRLines "MUL" :=
  ⟨⟨_, rfl, by decide⟩, rfl, ⟨rfl, noRegister_X⟩, ⟨rfl, noRegister_X⟩⟩

theorem witness_DivPutsTheQuotientInResAndKeepsCarry :
    RRLines "DIV" ∧ ((withAB 7 1 State.reset).readReg .B).toNat ≠ 0 ∧
    (((withAB 7 0 State.reset).readReg .B).toNat = 0 ∧
      (mk ["DIV A B"]).beginStep.prog[(mk ["DIV A B"]).beginStep.pc - 1]? = some (ln "DIV A B")) :=
  ⟨⟨⟨_, rfl, by decide⟩, rfl, ⟨rfl, noRegister_X⟩, ⟨rfl, noRegister_X⟩⟩, by decide, by decide, rfl⟩

theorem witness_LoadWritesOneRegisterAndNoFlag :
    (∃ ops, tokens (ln "LOAD 5") = ln "LOAD" :: ops ∧ ops.length ≠ 2) ∧
    (tokens (ln "LOAD A RES") = [ln "LOAD", RegName.A.spelling, RegName.RES.spelling] ∧
      Config.resOperandPolicy = .everywhere) ∧
    (tokens (ln "LOAD 256 D") = [ln "LOAD", ln "256", RegName.D.spelling] ∧ literal (ln "256") = some 256 ∧
      RegName.D ≠ .RES) ∧
    (tokens (ln "LOAD X A") = [ln "LOAD", ln "X", ln "A"] ∧ NoRegister (ln "X") ∧ literal (ln "X") = none) ∧
    (tokens (ln "LOAD 5 X") = [ln "LOAD", ln "5", ln "X"] ∧ NoRegister (ln "X")) ∧
    tokens (ln "LOAD 5 RES") = [ln "LOAD", ln "5", RegName.RES.spelling] ∧
    (∃ n, Src.imm 256 = .imm n) ∧ ∃ r, Src.reg .RES = .reg r :=
  ⟨⟨_, rfl, by decide⟩, ⟨rfl, rfl⟩, ⟨rfl, rfl, by decide⟩, ⟨rfl, noRegister_X, rfl⟩, ⟨rfl, noRegister_X⟩, rfl,
    ⟨_, rfl⟩, _, rfl⟩

/-- The lines of one opcode of format J in a program of 6 instructions: a wrong count, a target at N,
and one above N. -/
def JLines (op : String) : Prop :=
  (∃ ops, tokens (ln op) = ln op :: ops ∧ ops.length ≠ 1) ∧
  (tokens (ln (op ++ " 6")) = [ln op, ln "6"] ∧ resolveTarget [] 6 (ln "6") = .ok 6) ∧
  (tokens (ln (op ++ " 7")) = [ln op, ln "7"] ∧ resolveTarget [] 6 (ln "7") = .error .invalidJumpTarget)

theorem witness_JmpAlwaysSetsPcToItsTarget : JLines "JMP" :=
  ⟨⟨_, rfl, by decide⟩, ⟨rfl, rfl⟩, rfl, rfl⟩

theorem witness_ConditionalJumpsSetPcWhenTheirFlagMatches :
    JLines "JZ" ∧ JLines "JNZ" ∧ JLines "JC" ∧ JLines "JNC" :=
  ⟨⟨⟨_, rfl, by decide⟩, ⟨rfl, rfl⟩, rfl, rfl⟩, ⟨⟨_, rfl, by decide⟩, ⟨rfl, rfl⟩, rfl, rfl⟩,
    ⟨⟨_, rfl, by decide⟩, ⟨rfl, rfl⟩, rfl, rfl⟩, ⟨⟨_, rfl, by decide⟩, ⟨rfl, rfl⟩, rfl, rfl⟩⟩

theorem witness_PrintEmitsOneEventAndMutatesNothing :
    (∃ ops, tokens (ln "PRINT") = ln "PRINT" :: ops ∧ ops.length ≠ 1) ∧
    tokens (ln "PRINT RES") = [ln "PRINT", RegName.RES.spelling] ∧
    (tokens (ln "PRINT X") = [ln "PRINT", ln "X"] ∧ NoRegister (ln "X")) ∧
    (∃ t, (mk ["PRINT X"]).fetch = some (ln "PRINT X") ∧
      (mk ["PRINT X"]).decodeLine (ln "PRINT X") = .error .unknownRegister ∧
      stepOnce (mk ["PRINT X"]) = .next t) :=
  ⟨⟨_, rfl, by decide⟩, rfl, ⟨rfl, noRegister_X⟩, _, rfl, rfl, rfl⟩

theorem witness_StepRunsTheDecodedInstruction :
    ((mk ["ADD A B"]).fetch = some (ln "ADD A B") ∧ (mk ["ADD A B"]).decodeLine (ln "ADD A B") = .ok (.add .A .B) ∧
      (mk ["ADD A B"]).session = none) ∧
    ((inRun 0 1 true (mk ["ADD A B"])).fetch = some (ln "ADD A B") ∧
      (inRun 0 1 true (mk ["ADD A B"])).decodeLine (ln "ADD A B") = .ok (.add .A .B) ∧
      ∃ ses, (inRun 0 1 true (mk ["ADD A B"])).session = some ses ∧ ses.steps < ses.maxSteps) :=
  ⟨⟨rfl, rfl, rfl⟩, rfl, rfl, _, rfl, by decide⟩

theorem witness_DirectStepWhileIdleDoesNothing :
    State.reset.session = none ∧ State.reset.prog.length ≤ State.reset.pc := ⟨rfl, by decide⟩

theorem witness_IllegalLinesRaiseTheFirstFailingCheck :
    ((mk [" "]).fetch = some (ln " ") ∧ (mk [" "]).session = none ∧ tokens (ln " ") = []) ∧
    ((mk ["add A"]).fetch = some (ln "add A") ∧ (mk ["add A"]).session = none ∧
      tokens (ln "add A") = [ln "add", ln "A"] ∧ ∀ o : Opcode, ln "add" ≠ o.mnemonic) ∧
    ((mk ["ADD X"]).fetch = some (ln "ADD X") ∧ (mk ["ADD X"]).session = none ∧
      tokens (ln "ADD X") = [Opcode.add.mnemonic, ln "X"] ∧ [ln "X"].length ≠ Opcode.add.arity) ∧
    ((mk ["DIV X A"]).fetch = some (ln "DIV X A") ∧ (mk ["DIV X A"]).session = none ∧
      (mk ["DIV X A"]).decodeLine (ln "DIV X A") = .error .unknownRegister) :=
  ⟨⟨rfl, rfl, rfl⟩, ⟨rfl, rfl, rfl, fun o => by cases o <;> decide⟩, ⟨rfl, rfl, rfl, by decide⟩, rfl, rfl, rfl⟩

theorem witness_FaultingStepCommitsOnlyThePcAdvance :
    ∃ t f, stepOnce (mk ["DIV A B"]) = .next t ∧ t.result = some (.fault f) ∧ (mk ["DIV A B"]).idle = false :=
  ⟨_, _, rfl, rfl, rfl⟩

theorem witness_FaultRecordDescribesTheFaultingLine :
    ∃ t f, (mk ["FOO 1"]).fetch = some (ln "FOO 1") ∧ stepOnce (mk ["FOO 1"]) = .next t ∧
      t.result = some (.fault f) := ⟨_, _, rfl, rfl, rfl⟩

/-- A step of the machine that makes a `Step()` of a given instruction. -/
def Steps (s : State) (i : Instr) : Prop :=
  (∃ t, step s = .next t) ∧ s.willStep ∧ s.current = some (.ok i)

theorem witness_PcAfterAStepIsTheNextIndexOrATakenTarget :
    Steps (mk ["JMP 1"]) (.jmp 1) ∧ Steps (mk ["JZ 0"]) (.jz 0) ∧ Steps (mk ["JNZ 0"]) (.jnz 0) ∧
    Steps (mk ["JC 0"]) (.jc 0) ∧ Steps (mk ["JNC 0"]) (.jnc 0) ∧ Steps (mk ["PRINT A"]) (.print .A) := by
  refine ⟨⟨⟨_, rfl⟩, ⟨rfl, nofun⟩, rfl⟩, ⟨⟨_, rfl⟩, ⟨rfl, nofun⟩, rfl⟩, ⟨⟨_, rfl⟩, ⟨rfl, nofun⟩, rfl⟩,
    ⟨⟨_, rfl⟩, ⟨rfl, nofun⟩, rfl⟩, ⟨⟨_, rfl⟩, ⟨rfl, nofun⟩, rfl⟩, ⟨⟨_, rfl⟩, ⟨rfl, nofun⟩, rfl⟩⟩

theorem witness_CarryIsWrittenByAddSubAndMulOnly :
    ((∃ t, step State.reset = .next t) ∧ ¬ State.reset.willStep) ∧
    Steps (withAB 255 1 (mk ["ADD A B"])) (.add .A .B) ∧ Steps (withAB 0 1 (mk ["SUB A B"])) (.sub .A .B) ∧
    Steps (withAB 16 16 (mk ["MUL A B"])) (.mul .A .B) ∧ Steps (withAB 7 2 (mk ["DIV A B"])) (.div .A .B) :=
  ⟨⟨⟨_, rfl⟩, fun h => by cases h.1⟩, ⟨⟨_, rfl⟩, ⟨rfl, nofun⟩, rfl⟩, ⟨⟨_, rfl⟩, ⟨rfl, nofun⟩, rfl⟩,
    ⟨⟨_, rfl⟩, ⟨rfl, nofun⟩, rfl⟩, ⟨⟨_, rfl⟩, ⟨rfl, nofun⟩, rfl⟩⟩

theorem witness_ZeroIsWrittenByEverySuccessfulAluOperationOnly :
    Steps (withAB 255 1 (mk ["ADD A B"])) (.add .A .B) ∧ Steps (mk ["SUB A B"]) (.sub .A .B) ∧
    Steps (mk ["MUL A B"]) (.mul .A .B) ∧
    (Steps (withAB 0 5 (mk ["DIV A B"])) (.div .A .B) ∧
      ((withAB 0 5 (mk ["DIV A B"])).readReg .B).toNat ≠ 0) ∧
    ∃ t, step (mk ["SUB A A"]) = .next t ∧ t.zero ≠ (mk ["SUB A A"]).zero :=
  ⟨⟨⟨_, rfl⟩, ⟨rfl, nofun⟩, rfl⟩, ⟨⟨_, rfl⟩, ⟨rfl, nofun⟩, rfl⟩, ⟨⟨_, rfl⟩, ⟨rfl, nofun⟩, rfl⟩,
    ⟨⟨⟨_, rfl⟩, ⟨rfl, nofun⟩, rfl⟩, by decide⟩, _, rfl, by decide⟩

theorem witness_RegistersChangeOnlyByAluInResOrByLoad :
    (∃ t, step (mk ["LOAD 1 D"]) = .next t ∧ t.readReg .D ≠ (mk ["LOAD 1 D"]).readReg .D) ∧
    ∃ t, step (withAB 1 0 (mk ["ADD A B"])) = .next t ∧
      t.readReg .RES ≠ (withAB 1 0 (mk ["ADD A B"])).readReg .RES :=
  ⟨⟨_, rfl, by decide⟩, _, rfl, by decide⟩

theorem witness_OnlyProgramLoadReplacesTheStores :
    (∃ t, step (mk ["ADD A B"]) = .next t) ∧
    (loadProgram [ln "JMP x"] [(ln "x", 1)] State.reset).1 = .accepted := ⟨⟨_, rfl⟩, rfl⟩

theorem witness_PrintPortGainsOneEventPerExecutedPrint :
    Steps (mk ["PRINT A"]) (.print .A) ∧
    ((∃ t, step State.reset = .next t) ∧ ¬ State.reset.willStep) ∧
    ((∃ t, step (mk ["ADD A B"]) = .next t) ∧ ∀ r, (mk ["ADD A B"]).current ≠ some (.ok (.print r))) :=
  ⟨⟨⟨_, rfl⟩, ⟨rfl, nofun⟩, rfl⟩, ⟨⟨_, rfl⟩, fun h => by cases h.1⟩, ⟨_, rfl⟩, fun _ h => by cases h⟩

/-- A `Step()` made directly and the same one made in a run, of two machines that agree. -/
theorem witness_MachineStateIsIndependentOfTheHostSide :
    ∃ t t', SameArch (mk ["ADD A B"]) (inRun 0 1 true (mk ["ADD A B"])) ∧ (mk ["ADD A B"]).willStep ∧
      (inRun 0 1 true (mk ["ADD A B"])).willStep ∧ step (mk ["ADD A B"]) = .next t ∧
      step (inRun 0 1 true (mk ["ADD A B"])) = .next t' :=
  ⟨_, _, ⟨fun _ => rfl, ⟨rfl, rfl⟩, rfl, rfl, rfl⟩, ⟨rfl, nofun⟩,
    ⟨rfl, fun ses h => by cases h; decide⟩, rfl, rfl⟩

theorem witness_EveryStepKeepsTheInvariant :
    (mk ["JMP end"] [("end", 1)]).Inv ∧ ∃ t, step (mk ["JMP end"] [("end", 1)]) = .next t :=
  ⟨⟨by decide, ⟨by decide, by decide⟩, nofun⟩, _, rfl⟩

theorem witness_HostOperationsKeepTheInvariant :
    ((mk ["JMP end"] [("end", 1)]).Inv ∧ (([(ln "x", 1)] : LabelTable).map Prod.fst).Nodup) ∧
    (∃ ses t, (inRun 0 1 true (mk ["JMP end"] [("end", 1)])).Inv ∧
      (inRun 0 1 true (mk ["JMP end"] [("end", 1)])).session = some ses ∧
      runTurn false false ses (inRun 0 1 true (mk ["JMP end"] [("end", 1)])) = .next t) ∧
    ∃ t, run { maxSteps := 1, traceEnabled := true, stepDelay := 0 } (fun _ => true) (fun _ => true)
      (mk ["JMP end"] [("end", 1)]) = .next t :=
  ⟨⟨⟨by decide, ⟨by decide, by decide⟩, nofun⟩, by decide⟩,
    ⟨_, _, ⟨by decide, ⟨by decide, by decide⟩, fun _ h => by cases h; exact ⟨by decide, rfl⟩⟩, rfl, rfl⟩, _, rfl⟩

theorem witness_LoadProgramInstallsOrRefuses :
    (∃ name i, labelLookup [(ln "x", 2)] name = some i ∧ [ln "JMP x"].length < i) ∧
    ∀ p ∈ ([(ln "x", 1)] : LabelTable), p.2 ≤ [ln "JMP x"].length :=
  ⟨⟨ln "x", 2, rfl, by decide⟩, by decide⟩

theorem witness_DecodeOfEncodeIsTheInstruction :
    ((Instr.jmp 6).wellFormed .everywhere 6 = true ∧
      ∀ k, target (.jmp 6) = some k → labelLookup [] (decimal k) = none ∨ labelLookup [] (decimal k) = some k) ∧
    ((Instr.load (.imm 300) .A).wellFormed .readOnly 0 = true ∧
      ∀ k, target (.load (.imm 300) .A) = some k →
        labelLookup [] (decimal k) = none ∨ labelLookup [] (decimal k) = some k) :=
  ⟨⟨rfl, fun _ _ => Or.inl rfl⟩, rfl, fun _ _ => Or.inl rfl⟩

theorem witness_DecodedInstructionsAreWellFormed :
    (∀ p ∈ ([(ln "end", 6)] : LabelTable), p.2 ≤ 6) ∧
    decodeWith .everywhere [(ln "end", 6)] 6 (ln "JMP end") = .ok (.jmp 6) := ⟨by decide, rfl⟩

theorem witness_TokensAreTheMaximalRuns :
    (ln " ").all isSpace = true ∧
    (∀ p ∈ [(ln "ADD", ln "  "), (ln "A", ln "\t"), (ln "B", ([] : Line))],
      p.1 ≠ [] ∧ (∀ c ∈ p.1, isSpace c = false) ∧ p.2.all isSpace = true) ∧
    ∀ p ∈ [(ln "ADD", ln "  "), (ln "A", ln "\t"), (ln "B", ([] : Line))].dropLast, p.2 ≠ [] := by
  simp [ln, isSpace]

theorem witness_OpcodeTokenSelectsByExactEquality :
    (tokens (ln "FOO") = [ln "FOO"] ∧ ∀ o : Opcode, ln "FOO" ≠ o.mnemonic) ∧
    (tokens (ln "PRINT A") = [ln "PRINT", ln "A"] ∧
      decodeWith .everywhere [] 0 (ln "PRINT A") = .ok (.print .A)) :=
  ⟨⟨rfl, fun o => by cases o <;> decide⟩, rfl, rfl⟩

theorem witness_LiteralsAreUnsignedDecimal :
    literal (ln "025") = some 25 ∧ isDigit '0' = true ∧ isDigit '9' = true := ⟨rfl, rfl, rfl⟩

theorem witness_JumpTargetsResolveLabelsFirstAndFaultOtherwise :
    labelLookup [(ln "3", 5)] (ln "3") = some 5 ∧
    (labelLookup [] (ln "6") = none ∧ literal (ln "6") = some 6 ∧ 6 ≤ 6) ∧
    (labelLookup [] (ln "7") = none ∧ literal (ln "7") = some 7 ∧ 6 < 7) ∧
    (labelLookup [] (ln "A") = none ∧ literal (ln "A") = none) ∧
    (Opcode.jz ∈ [Opcode.jmp, .jz, .jnz, .jc, .jnc] ∧ (mk ["JZ foo"]).fetch = some (ln "JZ foo") ∧
      tokens (ln "JZ foo") = [Opcode.jz.mnemonic, ln "foo"] ∧ (mk ["JZ foo"]).labels = [] ∧
      (mk ["JZ foo"]).prog.length = 1 ∧ resolveTarget [] 1 (ln "foo") = .error .invalidJumpTarget) :=
  ⟨rfl, ⟨rfl, rfl, by decide⟩, ⟨rfl, rfl, by decide⟩, ⟨rfl, rfl⟩, by decide, rfl, rfl, rfl, rfl, rfl⟩

theorem witness_CommentsAndSurroundingBlanksAreIgnored :
    ';' ∉ ln "ADD A A" ∧ (ln " \t").all isSpace = true ∧ (ln "").all isSpace = true ∧
    (∀ c, (ln "ADD A A").head? = some c → isSpace c = false) ∧
    (∀ c, (ln "ADD A A").getLast? = some c → isSpace c = false) :=
  ⟨by decide, by decide, by decide, fun _ h => by cases h; decide, fun _ h => by cases h; decide⟩

theorem witness_LoaderEmitsTheInstructionLinesInOrder :
    instrLine (ln "  LOAD 5 A   ; five") = some (ln "LOAD 5 A") ∧ ln "LOAD 5 A" ≠ [] ∧
    (ln "LOAD 5 A").getLast? ≠ some ':' := by decide

theorem witness_LabelsAreBoundToTheNextInstruction :
    ((cleanLine (ln " end : ; last")).getLast? = some ':' ∧
      cleanLine (ln " end : ; last") = ln "end" ++ ln " " ++ [':'] ∧ (ln " ").all isSpace = true ∧
      ∀ c, (ln "end").getLast? = some c → isSpace c = false) ∧
    (classify (ln " end : ; last") = .label (ln "end") ∧ ∀ l ∈ [ln "ADD A A"], classify l ≠ .label (ln "end")) ∧
    ∀ l ∈ [ln "ADD A A", ln "start:"], classify l ≠ .label (ln "end") :=
  ⟨⟨by decide, by decide, by decide, fun _ h => by cases h; decide⟩, by decide, by decide⟩

theorem witness_StopConditionsAreTestedInOrder :
    State.reset.idle = true ∧
    ((mk ["ADD A B"]).idle = false ∧ ∃ ses : Session, ses.maxSteps ≤ ses.steps) ∧
    ∃ (u : State) (ses : Session), (mk ["ADD A B"]).idle = false ∧ ses.steps < ses.maxSteps ∧
      stepOnce (mk ["ADD A B"]) = .next u ∧ u.result = some .ok ∧ ses.traceEnabled = true :=
  ⟨rfl, ⟨rfl, { steps := 1, maxSteps := 1, traceEnabled := true, stepDelay := 0 }, by decide⟩,
    _, { steps := 0, maxSteps := 1, traceEnabled := true, stepDelay := 0 }, rfl, by decide, rfl, rfl, rfl⟩

theorem witness_SnapshotFollowsEachCompletedStep :
    (∃ (t u : State) (ses : Session), (mk ["PRINT A"]).idle = false ∧ ses.steps < ses.maxSteps ∧
      stepOnce (mk ["PRINT A"]) = .next u ∧ runTurn true true ses (mk ["PRINT A"]) = .next t ∧
      u.result = some .ok ∧ ses.traceEnabled = true) ∧
    (∃ (t u : State) (ses : Session), (mk ["PRINT A"]).idle = false ∧ ses.steps < ses.maxSteps ∧
      stepOnce (mk ["PRINT A"]) = .next u ∧ runTurn true true ses (mk ["PRINT A"]) = .next t ∧
      u.result = some .ok ∧ ses.traceEnabled = false) ∧
    ∃ (t u : State) (ses : Session) (f : FaultRecord), (mk ["PRINT X"]).idle = false ∧ ses.steps < ses.maxSteps ∧
      stepOnce (mk ["PRINT X"]) = .next u ∧ runTurn true true ses (mk ["PRINT X"]) = .next t ∧
      u.result = some (.fault f) :=
  ⟨⟨_, _, { steps := 0, maxSteps := 1, traceEnabled := true, stepDelay := 0 }, rfl, by decide, rfl, rfl, rfl, rfl⟩,
    ⟨_, _, { steps := 0, maxSteps := 1, traceEnabled := false, stepDelay := 0 }, rfl, by decide, rfl, rfl, rfl, rfl⟩,
    _, _, { steps := 0, maxSteps := 1, traceEnabled := true, stepDelay := 0 }, _, rfl, by decide, rfl, rfl, rfl⟩

theorem witness_FaultEndsTheRunWhateverTheHostAnswers :
    ∃ (u : State) (ses : Session) (f : FaultRecord), (mk ["DIV A B"]).idle = false ∧ ses.steps < ses.maxSteps ∧
      stepOnce (mk ["DIV A B"]) = .next u ∧ u.result = some (.fault f) :=
  ⟨_, { steps := 0, maxSteps := 1, traceEnabled := true, stepDelay := 0 }, _, rfl, by decide, rfl, rfl⟩

/-- How a run of a program ends, and with how many completed steps. -/
def ending (traced : Bool) (stops cancels : Nat → Bool) (s : State) : Option (Option RunOutcome) :=
  (nextOf (run { maxSteps := 2, traceEnabled := traced, stepDelay := 0 } stops cancels s)).map State.outcome

/-- Every kind of outcome, at its boundary: the last instruction on the last step of the budget, a
budget used in a loop, a request after the last step, one after the first, and a fault. -/
theorem witness_EveryRunEndsWithinItsBudget :
    ending true (fun _ => false) (fun _ => false) (mk ["LOAD 1 A", "JMP 2"]) = some (some ⟨.halted, 2⟩) ∧
    ending true (fun _ => false) (fun _ => false) (mk ["JMP 0"]) = some (some ⟨.budgetExhausted, 2⟩) ∧
    ending true (fun k => k == 2) (fun _ => false) (mk ["JMP 0"]) = some (some ⟨.cancelled, 2⟩) ∧
    ending false (fun _ => true) (fun k => k == 1) (mk ["JMP 1"]) = some (some ⟨.cancelled, 1⟩) ∧
    ∃ f, ending false (fun _ => true) (fun _ => false) (mk ["LOAD 1 A", "FOO"]) = some (some ⟨.faulted f, 1⟩) :=
  ⟨rfl, rfl, rfl, rfl, _, rfl⟩

theorem witness_TracedRunsNumberTheirSnapshotsFromOne :
    (∃ t o, run { maxSteps := 2, traceEnabled := true, stepDelay := 0 } (fun _ => false) (fun _ => false)
      (mk ["LOAD 1 A", "JMP 0"]) = .next t ∧ t.outcome = some o ∧ (tracePort t).map Snapshot.step = [1, 2]) ∧
    (∃ t o, run { maxSteps := 2, traceEnabled := false, stepDelay := 0 } (fun _ => false) (fun _ => false)
      (mk ["LOAD 1 A", "JMP 0"]) = .next t ∧ t.outcome = some o) :=
  ⟨⟨_, _, rfl, rfl, rfl⟩, _, _, rfl, rfl⟩

theorem witness_RunsContinueWhereTheBudgetStoppedThem :
    (∃ t t' o o', run { maxSteps := 1, traceEnabled := false, stepDelay := 0 } (fun _ => false) (fun _ => false)
        (mk ["LOAD 1 A", "LOAD 2 B"]) = .next t ∧ t.outcome = some o ∧ o.kind = .budgetExhausted ∧
      run { maxSteps := 1, traceEnabled := false, stepDelay := 0 } (fun _ => false) (fun _ => false) t = .next t' ∧
      t'.outcome = some o') ∧
    (∃ t t' o o', run { maxSteps := 2, traceEnabled := true, stepDelay := 0 } (fun k => k == 1) (fun _ => false)
        (mk ["LOAD 1 A", "LOAD 2 B"]) = .next t ∧ t.outcome = some o ∧ o.kind = .cancelled ∧
      run { maxSteps := 0, traceEnabled := true, stepDelay := 0 } (fun _ => false) (fun _ => true) t = .next t' ∧
      t'.outcome = some o') :=
  ⟨⟨_, _, _, _, rfl, rfl, rfl, rfl, rfl⟩, _, _, _, _, rfl, rfl, rfl, rfl, rfl⟩

theorem witness_TableWordOfAnInstructionReadsBack :
    (Instr.jmp 1).wellFormed Config.resOperandPolicy 1 = true := rfl

theorem witness_StoredFetchWordIsWhatTheNextStepFetches :
    1 ≠ (mk ["", "PRINT A"]).pc ∧ (mk ["", "PRINT A"]).prog[1]? = some (ln "PRINT A") := ⟨by decide, rfl⟩

end Sys2Proof.Tests
end

section
/-! PROOFS. Family 10_state.md: what a step does to the architectural state, and what it keeps.

The step lemmas of the model (`stepState_cases`, `stepOnceState_congr`, `effect_cases`) are read here
through `State.willStep` and `State.current`, the words the statements use. -/

namespace Sys2Proof.Machine

/-! ### A step as a `Step()`, or as nothing, on the architectural state -/

theorem eq_stepState {s t : State} (h : step s = .next t) : t = stepState s := by
  rw [step_eq] at h
  exact (Host.Outcome.next.inj h).symm

/-- The run loop after a step leaves the architectural state the step left. -/
theorem afterStep_sameArch (stop cancel : Bool) (ses : Session) (t : State) :
    SameArch t (afterStep stop cancel ses t) :=
  .of_eq (afterStep_regs ..) (afterStep_carry ..) (afterStep_zero ..) (afterStep_pc ..)
    (afterStep_prog ..) (afterStep_labels ..)

/-- A step that makes a `Step()` leaves the architectural state the `Step()` leaves. -/
theorem stepState_sameArch {s : State} (h : s.willStep) : SameArch (stepOnceState s) (stepState s) := by
  obtain ⟨-, h'⟩ | ⟨hn, -⟩ | ⟨-, ses, stop, cancel, -, -, h'⟩ := stepState_cases s
  · rw [h']
    exact .refl _
  · exact absurd h hn
  · rw [h']
    exact afterStep_sameArch stop cancel ses _

theorem stepState_readReg {s : State} (h : s.willStep) (r : RegName) :
    (stepState s).readReg r = (stepOnceState s).readReg r := (stepState_sameArch h).1 r

theorem stepState_carry {s : State} (h : s.willStep) : (stepState s).carry = (stepOnceState s).carry :=
  (stepState_arch h).2.1

theorem stepState_zero {s : State} (h : s.willStep) : (stepState s).zero = (stepOnceState s).zero :=
  (stepState_arch h).2.2.1

theorem stepState_readReg_not {s : State} (h : ¬ s.willStep) (r : RegName) :
    (stepState s).readReg r = s.readReg r := congrArg (·.get r) (stepState_arch_not h).1

theorem stepState_carry_not {s : State} (h : ¬ s.willStep) : (stepState s).carry = s.carry :=
  (stepState_arch_not h).2.1

theorem stepState_zero_not {s : State} (h : ¬ s.willStep) : (stepState s).zero = s.zero :=
  (stepState_arch_not h).2.2.1

/-! ### Independence of the host's side -/

/-- Settles O21: both steps leave the architectural state of their `Step()`, and a `Step()` sees the
architectural state only. -/
theorem machineStateIsIndependentOfTheHostSide : Obligations.MachineStateIsIndependentOfTheHostSide := by
  intro s s' t t' h hw hw' ht ht'
  obtain rfl := eq_stepState ht
  obtain rfl := eq_stepState ht'
  exact ((stepState_sameArch hw).symm.trans (stepOnceState_congr h).1).trans (stepState_sameArch hw')

/-! ### What the decoder answers with is well-formed (30_encoding.md R71) -/

theorem decodeRR_ok {policy : ResOperandPolicy} {mk : RegName → RegName → Instr} {t1 t2 : Token} {i : Instr}
    (h : decodeRR policy mk t1 t2 = .ok i) : ∃ r1 r2, i = mk r1 r2 := by
  unfold decodeRR at h
  split at h
  · cases h
  · split at h <;> cases h
    exact ⟨_, _, rfl⟩

theorem decodeR_ok {policy : ResOperandPolicy} {mk : RegName → Instr} {t1 : Token} {i : Instr}
    (h : decodeR policy mk t1 = .ok i) : ∃ r, i = mk r := by
  unfold decodeR at h
  split at h <;> cases h
  exact ⟨_, rfl⟩

/-- A destination that is accepted is one the policy allows (R68). -/
theorem wellFormedDest_of_regOperand {policy : ResOperandPolicy} {tok : Token} {rd : RegName}
    (h : regOperand policy true tok = .ok rd) : wellFormedDest policy rd = true := by
  obtain ⟨r, hr, hok⟩ | herr := regOperand_cases policy true tok
  · rw [← spelling_of_ofToken hr, regOperand_dest_spelling] at h
    split at h <;> cases h
    assumption
  · rw [herr] at h
    cases h

theorem decodeLD_ok {policy : ResOperandPolicy} {mk : Src → RegName → Instr} {t1 t2 : Token} {i : Instr}
    (h : decodeLD policy mk t1 t2 = .ok i) :
    ∃ src rd, i = mk src rd ∧ wellFormedDest policy rd = true := by
  unfold decodeLD at h
  split at h
  · cases h
  · split at h
    · cases h
    · rename_i hd
      cases h
      exact ⟨_, _, rfl, wellFormedDest_of_regOperand hd⟩

/-- A jump's target lies in [0, N] when every label's index does (42_control.md R130). -/
theorem decodeJ_ok {labels : LabelTable} {n : Nat} {mk : Nat → Instr} {t1 : Token} {i : Instr}
    (hl : ∀ p ∈ labels, p.2 ≤ n) (h : decodeJ labels n mk t1 = .ok i) : ∃ k, i = mk k ∧ k ≤ n := by
  unfold decodeJ at h
  obtain ⟨k, hk, hm | hle⟩ | herr := resolveTarget_cases labels n t1
  · rw [hk] at h
    cases h
    exact ⟨k, rfl, hl _ hm⟩
  · rw [hk] at h
    cases h
    exact ⟨k, rfl, hle⟩
  · rw [herr] at h
    cases h

/-- By format: LD, R, no operand list of the opcode's arity, RR, and J for the rest (R74). -/
theorem decodeOperands_wellFormed {policy : ResOperandPolicy} {labels : LabelTable} {n : Nat} {o : Opcode}
    {operands : List Token} {i : Instr} (hl : ∀ p ∈ labels, p.2 ≤ n)
    (h : decodeOperands policy labels n o operands = .ok i) : i.wellFormed policy n = true := by
  unfold decodeOperands at h
  split at h
  case h_5 =>
    obtain ⟨src, rd, rfl, hd⟩ := decodeLD_ok h
    exact hd
  case h_11 =>
    obtain ⟨r, rfl⟩ := decodeR_ok h
    rfl
  case h_12 => cases h
  case h_1 | h_2 | h_3 | h_4 =>
    obtain ⟨r1, r2, rfl⟩ := decodeRR_ok h
    rfl
  all_goals
    obtain ⟨k, rfl, hk⟩ := decodeJ_ok hl h
    exact decide_eq_true hk

theorem decodeWith_wellFormed {policy : ResOperandPolicy} {labels : LabelTable} {n : Nat} {line : Line}
    {i : Instr} (hl : ∀ p ∈ labels, p.2 ≤ n) (h : decodeWith policy labels n line = .ok i) :
    i.wellFormed policy n = true := by
  unfold decodeWith decodeTokens at h
  split at h
  · cases h
  · split at h
    · cases h
    · exact decodeOperands_wellFormed hl h

theorem target_le_of_wellFormed {policy : ResOperandPolicy} {n k : Nat} {i : Instr}
    (h : i.wellFormed policy n = true) (ht : target i = some k) : k ≤ n := by
  cases i <;> cases ht
  all_goals exact of_decide_eq_true h

/-! ### The invariant -/

/-- The invariant depends on the host's side through the session alone. -/
theorem State.Inv.of_sameArch {s t : State} (h : s.Inv) (ha : SameArch s t) (hs : SessionOk t) : t.Inv := by
  obtain ⟨-, -, hpc, hprog, hlabels⟩ := ha
  obtain ⟨hle, hok, -⟩ := h
  refine ⟨?_, ?_, hs⟩
  · rwa [hpc, hprog]
  · rwa [hprog, hlabels]

theorem sessionOk_of_none {s : State} (h : s.session = none) : SessionOk s := by
  simp [SessionOk, h]

theorem State.Inv.endRun {s : State} (h : s.Inv) (kind : OutcomeKind) (n : Nat) : (s.endRun kind n).Inv :=
  h.of_sameArch (.of_eq rfl rfl rfl rfl rfl rfl) (sessionOk_of_none rfl)

/-- Only a jump that is taken moves pc away from the next instruction. -/
theorem effect_pc (i : Instr) (s : State) : (effect i s).pc = s.pc ∨ target i = some (effect i s).pc := by
  obtain ⟨op, r1, r2, out, -, -, h⟩ | ⟨r1, r2, -, -, h⟩ | ⟨src, rd, -, h⟩ | ⟨k, hk, h | h⟩ | ⟨r, -, h⟩ :=
    effect_cases i s <;> rw [h]
  case inr.inr.inr.inl.inl => exact Or.inr hk
  all_goals exact Or.inl rfl

/-- A `Step()` from pc in [0, N] ends with pc in [0, N]: it fetches below N, and its targets resolve. -/
theorem stepOnceState_pc_le {s : State} (h : s.Inv) : (stepOnceState s).pc ≤ s.prog.length := by
  obtain ⟨hle, ⟨-, hrange⟩, -⟩ := h
  cases hf : s.fetch with
  | none => rwa [stepOnceState_idle hf]
  | some line =>
    have hnext : s.beginStep.pc ≤ s.prog.length := (idle_eq_false_iff s).1 (idle_of_fetch hf)
    cases hd : s.decodeLine line with
    | error k => rwa [stepOnceState_error hf hd]
    | ok i =>
      rw [stepOnceState_ok hf hd]
      obtain hpc | ht := effect_pc i s.beginStep
      · rwa [hpc]
      · exact target_le_of_wellFormed (decodeWith_wellFormed hrange hd) ht

theorem stepOnceState_inv {s : State} (h : s.Inv) : (stepOnceState s).Inv := by
  obtain ⟨⟨hprog, hlabels⟩, hses, hout, -⟩ := stepOnceState_frame s
  have hpc := stepOnceState_pc_le h
  obtain ⟨-, hok, hsession⟩ := h
  refine ⟨?_, ?_, ?_⟩
  · rwa [hprog]
  · rwa [hprog, hlabels]
  · rwa [SessionOk, hses, hout]

theorem trace_outcome (s : State) (ses : Session) : (s.trace ses).outcome = s.outcome := by
  unfold State.trace
  split <;> rfl

/-- Every turn of a run keeps the invariant, whatever the host answers: the budget was tested before
the step that it counts. -/
theorem runTurnState_inv {s : State} {ses : Session} (h : s.Inv) (hs : s.session = some ses)
    (stop cancel : Bool) : (runTurnState stop cancel ses s).Inv := by
  have hstep := stepOnceState_inv h
  obtain ⟨-, hr⟩ | ⟨-, -, hr⟩ | ⟨-, -, k, hk, hr⟩ | ⟨-, hlt, -, hr⟩ := runTurnState_cases stop cancel ses s
  · exact hr ▸ h.endRun _ _
  · exact hr ▸ h.endRun _ _
  · exact hr ▸ (hk ▸ hstep).endRun _ _
  · have harch := trace_arch (stepOnceState s) ses.count
    rw [hr]
    split
    · exact hstep.of_sameArch (harch.trans (.of_eq rfl rfl rfl rfl rfl rfl)) (sessionOk_of_none rfl)
    · refine hstep.of_sameArch (harch.trans (.of_eq rfl rfl rfl rfl rfl rfl)) ?_
      rintro ses' ⟨⟩
      obtain ⟨-, -, hout, -⟩ := stepOnceState_frame s
      obtain ⟨-, -, hsession⟩ := h
      exact ⟨hlt, by rw [trace_outcome, hout, (hsession ses hs).2]⟩

/-- Settles O22: at reset pc is 0, the label table is empty and there is no session. -/
theorem resetMeetsTheInvariant : Obligations.ResetMeetsTheInvariant :=
  ⟨Nat.le_refl 0, ⟨List.nodup_nil, nofun⟩, sessionOk_of_none rfl⟩

/-- Settles O23: a step is a direct `Step()` or a turn of the run loop, and each keeps the invariant. -/
theorem everyStepKeepsTheInvariant : Obligations.EveryStepKeepsTheInvariant := by
  intro s t h ht
  obtain rfl := eq_stepState ht
  unfold stepState
  cases hs : s.session with
  | none => exact stepOnceState_inv h
  | some ses => exact runTurnState_inv h hs _ _

/-! ### The `Step()` by what it decodes -/

theorem current_of_fetch {s : State} {line : Line} (h : s.fetch = some line) :
    s.current = some (s.decodeLine line) := by
  simp [State.current, h]

theorem stepOnceState_of_current {s : State} {i : Instr} (h : s.current = some (.ok i)) :
    stepOnceState s = effect i s.beginStep := by
  cases hf : s.fetch with
  | none => simp [State.current, hf] at h
  | some line => exact stepOnceState_ok hf (Option.some.inj ((current_of_fetch hf).symm.trans h))

/-- A step that makes a `Step()` has a line to decode: it is in error, or it is run. -/
theorem current_cases {s : State} (h : s.willStep) :
    (∃ k, s.current = some (.error k) ∧ stepOnceState s = s.beginStep.raise k) ∨
    (∃ i, s.current = some (.ok i) ∧ stepOnceState s = effect i s.beginStep) := by
  obtain ⟨line, hf⟩ := fetch_of_not_idle h.1
  have hcur := current_of_fetch hf
  cases hd : s.decodeLine line with
  | error k => exact Or.inl ⟨k, by rw [hcur, hd], stepOnceState_error hf hd⟩
  | ok i => exact Or.inr ⟨i, by rw [hcur, hd], stepOnceState_ok hf hd⟩

/-! ### Carry -/

theorem execAlu_add_carry (r1 r2 : RegName) (s : State) :
    (execAlu .add r1 r2 s).carry = decide (255 < (s.readReg r1).toNat + (s.readReg r2).toNat) :=
  aluAdd_carry _ _

theorem execAlu_sub_carry (r1 r2 : RegName) (s : State) :
    (execAlu .sub r1 r2 s).carry = decide ((s.readReg r1).toNat < (s.readReg r2).toNat) :=
  aluSub_carry _ _

theorem execAlu_mul_carry (r1 r2 : RegName) (s : State) :
    (execAlu .mul r1 r2 s).carry = decide (255 < (s.readReg r1).toNat * (s.readReg r2).toNat) :=
  aluMul_carry _ _

theorem alu_div_carry {v1 v2 : Byte} {c : Bool} {out : AluOut} (h : alu .div v1 v2 c = some out) :
    out.carry = c := by
  simp only [alu] at h
  split at h <;> cases h
  rfl

/-- DIV passes carry through, or faults and writes nothing (40_alu.md R104). -/
theorem execAlu_div_carry (r1 r2 : RegName) (s : State) : (execAlu .div r1 r2 s).carry = s.carry := by
  obtain ⟨out, hout, h⟩ | ⟨-, -, h⟩ := execAlu_cases .div r1 r2 s <;> rw [h]
  · exact alu_div_carry hout
  · rfl

theorem execJump_carry (cond : Cond) (k : Nat) (s : State) : (execJump cond k s).carry = s.carry := by
  obtain h | h := execJump_cases cond k s <;> rw [h]
  rfl

/-- Settles O16, by the instruction that is run. -/
theorem carryIsWrittenByAddSubAndMulOnly : Obligations.CarryIsWrittenByAddSubAndMulOnly := by
  intro s t ht
  obtain rfl := eq_stepState ht
  refine ⟨stepState_carry_not, fun hw => ?_⟩
  rw [stepState_carry hw]
  obtain ⟨k, hcur, hstep⟩ | ⟨i, hcur, hstep⟩ := current_cases hw <;> rw [hcur, hstep]
  · rfl
  · cases i with
    | add r1 r2 => exact execAlu_add_carry r1 r2 s.beginStep
    | sub r1 r2 => exact execAlu_sub_carry r1 r2 s.beginStep
    | mul r1 r2 => exact execAlu_mul_carry r1 r2 s.beginStep
    | div r1 r2 => exact execAlu_div_carry r1 r2 s.beginStep
    | load src rd => rfl
    | print r => rfl
    | jmp k | jz k | jnz k | jc k | jnc k => exact execJump_carry _ k s.beginStep

/-! ### Zero and the registers -/

/-- The `Step()` runs an ALU instruction of these sources that succeeds (40_alu.md R105). -/
def RunsAlu (s : State) (r1 r2 : RegName) : Prop :=
  s.current = some (.ok (.add r1 r2)) ∨ s.current = some (.ok (.sub r1 r2)) ∨
    s.current = some (.ok (.mul r1 r2)) ∨
    (s.current = some (.ok (.div r1 r2)) ∧ (s.readReg r2).toNat ≠ 0)

theorem runsAlu_iff {s : State} {r1 r2 : RegName} :
    RunsAlu s r1 r2 ↔ ∃ i op, s.current = some (.ok i) ∧ aluForm i = some (op, r1, r2) ∧
      (op = .div → (s.readReg r2).toNat ≠ 0) := by
  constructor
  · rintro (h | h | h | ⟨h, hz⟩)
    · exact ⟨_, .add, h, rfl, nofun⟩
    · exact ⟨_, .sub, h, rfl, nofun⟩
    · exact ⟨_, .mul, h, rfl, nofun⟩
    · exact ⟨_, .div, h, rfl, fun _ => hz⟩
  · rintro ⟨i, op, h, hform, hz⟩
    cases i <;> cases hform
    · exact Or.inl h
    · exact Or.inr (Or.inl h)
    · exact Or.inr (Or.inr (Or.inl h))
    · exact Or.inr (Or.inr (Or.inr ⟨h, hz rfl⟩))

theorem effect_of_aluForm {i : Instr} {op : AluOp} {r1 r2 : RegName} (h : aluForm i = some (op, r1, r2))
    (s : State) : effect i s = execAlu op r1 r2 s := by
  cases i <;> cases h <;> rfl

/-- A successful ALU instruction commits an ALU output to RES and the flags, and nothing else. -/
theorem RunsAlu.stepOnceState_eq {s : State} {r1 r2 : RegName} (h : RunsAlu s r1 r2) :
    ∃ op out, alu op (s.readReg r1) (s.readReg r2) s.carry = some out ∧
      stepOnceState s = (s.beginStep.writeReg .RES out.res).writeFlags out.carry out.zero := by
  obtain ⟨i, op, hcur, hform, hz⟩ := runsAlu_iff.1 h
  rw [stepOnceState_of_current hcur, effect_of_aluForm hform]
  obtain ⟨out, hout, heq⟩ | ⟨hdiv, hzero, -⟩ := execAlu_cases op r1 r2 s.beginStep
  · exact ⟨op, out, hout, heq⟩
  · exact absurd hzero (hz hdiv)

theorem RunsAlu.zero_eq {s : State} {r1 r2 : RegName} (h : RunsAlu s r1 r2) :
    (stepOnceState s).zero = decide (((stepOnceState s).readReg .RES).toNat = 0) := by
  obtain ⟨op, out, hout, heq⟩ := h.stepOnceState_eq
  simpa [heq] using alu_zero hout

theorem RunsAlu.readReg_other {s : State} {r1 r2 r : RegName} (h : RunsAlu s r1 r2) (hr : r ≠ .RES) :
    (stepOnceState s).readReg r = s.readReg r := by
  obtain ⟨op, out, -, heq⟩ := h.stepOnceState_eq
  simp [heq, hr]

/-- What a `Step()` can do to registers and flags: commit an ALU output, load, or nothing. -/
theorem stepOnceState_writes {s : State} (h : s.willStep) :
    (∃ r1 r2, RunsAlu s r1 r2) ∨
    (∃ src rd v, s.current = some (.ok (.load src rd)) ∧ stepOnceState s = s.beginStep.writeReg rd v) ∨
    ((stepOnceState s).regs = s.regs ∧ (stepOnceState s).zero = s.zero) := by
  obtain ⟨k, -, hstep⟩ | ⟨i, hcur, hstep⟩ := current_cases h <;> rw [hstep]
  · exact Or.inr (Or.inr ⟨rfl, rfl⟩)
  · obtain ⟨op, r1, r2, out, hform, hout, -⟩ | ⟨r1, r2, -, -, he⟩ | ⟨src, rd, rfl, he⟩ | ⟨k, -, he | he⟩ | ⟨r, -, he⟩ :=
      effect_cases i s.beginStep
    · refine Or.inl ⟨r1, r2, runsAlu_iff.2 ⟨i, op, hcur, hform, fun hdiv hz => ?_⟩⟩
      exact Option.some_ne_none out (hout.symm.trans (alu_none.2 ⟨hdiv, hz⟩))
    · exact Or.inr (Or.inr (by simp [he]))
    · exact Or.inr (Or.inl ⟨src, rd, _, hcur, he⟩)
    all_goals exact Or.inr (Or.inr (by simp [he]))

/-- Settles O17, by what a `Step()` can write. -/
theorem zeroIsWrittenByEverySuccessfulAluOperationOnly :
    Obligations.ZeroIsWrittenByEverySuccessfulAluOperationOnly := by
  intro s t ht
  obtain rfl := eq_stepState ht
  refine ⟨fun r1 r2 hw (h : RunsAlu s r1 r2) => ?_, fun hne => ?_⟩
  · rw [stepState_zero hw, stepState_readReg hw]
    exact h.zero_eq
  · have hw : s.willStep := by_contra fun hn => hne (stepState_zero_not hn)
    rw [stepState_zero hw] at hne
    obtain h | ⟨src, rd, v, -, hstep⟩ | ⟨-, hzero⟩ := stepOnceState_writes hw
    · exact ⟨hw, h⟩
    · exact absurd (by rw [hstep]; rfl) hne
    · exact absurd hzero hne

/-- Settles O18, by what a `Step()` can write. -/
theorem registersChangeOnlyByAluInResOrByLoad : Obligations.RegistersChangeOnlyByAluInResOrByLoad := by
  intro s t r ht hne
  obtain rfl := eq_stepState ht
  have hw : s.willStep := by_contra fun hn => hne (stepState_readReg_not hn r)
  rw [stepState_readReg hw] at hne
  refine ⟨hw, ?_⟩
  obtain ⟨r1, r2, h⟩ | ⟨src, rd, v, hcur, hstep⟩ | ⟨hregs, -⟩ := stepOnceState_writes hw
  · exact Or.inr ⟨by_contra fun hr => hne (h.readReg_other hr), r1, r2, h⟩
  · obtain rfl : r = rd := by_contra fun hr => hne (by simp [hstep, hr])
    exact Or.inl ⟨src, hcur⟩
  · exact absurd (congrArg (·.get r) hregs) hne

end Sys2Proof.Machine
end

section
/-! PROOFS. Family 20_memory.md: what writes the program store and the label table, what a program load
accepts, and the storing of a line for the next fetch. -/

namespace Sys2Proof.Machine

/-! ### No step writes the stores -/

theorem SameStores.trans {s t u : State} (h : SameStores s t) (h' : SameStores t u) : SameStores s u :=
  ⟨h'.1.trans h.1, h'.2.trans h.2⟩

theorem afterStep_stores (stop cancel : Bool) (ses : Session) (t : State) :
    SameStores t (afterStep stop cancel ses t) := ⟨afterStep_prog .., afterStep_labels ..⟩

/-- A step in a run or outside one leaves both stores as they were (20_memory.md R42). -/
theorem stepState_stores (s : State) : SameStores s (stepState s) := by
  have hstep : SameStores s (stepOnceState s) := (stepOnceState_frame s).1
  obtain ⟨-, h⟩ | ⟨-, ses, kind, -, h⟩ | ⟨-, ses, stop, cancel, -, -, h⟩ := stepState_cases s <;> rw [h]
  · exact hstep
  · exact ⟨rfl, rfl⟩
  · exact hstep.trans (afterStep_stores stop cancel ses _)

/-! ### What a program load does (70_reset_and_hazards.md R241) -/

theorem labelsInRange_iff {labels : LabelTable} {n : Nat} :
    labelsInRange labels n = true ↔ ∀ p ∈ labels, p.2 ≤ n := by
  simp [labelsInRange]

/-- The two cases of a program load: there is no length limit, so the labels' range decides alone. -/
theorem loadProgram_eq (prog : List Line) (labels : LabelTable) (s : State) :
    loadProgram prog labels s =
      if labelsInRange labels prog.length then (.accepted, { s with prog := prog, labels := labels, pc := 0 })
      else (.refused, s) := by
  have hlimit : withinLimit Config.nMax prog.length = true := rfl
  rw [loadProgram, loadProgramWithin, hlimit, Bool.and_true]

theorem loadProgram_of_inRange {prog : List Line} {labels : LabelTable}
    (h : ∀ p ∈ labels, p.2 ≤ prog.length) (s : State) :
    loadProgram prog labels s = (.accepted, { s with prog := prog, labels := labels, pc := 0 }) := by
  rw [loadProgram_eq, if_pos (labelsInRange_iff.2 h)]

theorem loadProgram_accepted_iff {prog : List Line} {labels : LabelTable} {s : State} :
    (loadProgram prog labels s).1 = .accepted ↔ ∀ p ∈ labels, p.2 ≤ prog.length := by
  refine ⟨fun h => ?_, fun h => by rw [loadProgram_of_inRange h]⟩
  rw [loadProgram_eq] at h
  split at h
  · exact labelsInRange_iff.1 ‹_›
  · cases h

/-- Settles O19: no step writes the stores, and a load that is accepted installs what it is given. -/
theorem onlyProgramLoadReplacesTheStores : Obligations.OnlyProgramLoadReplacesTheStores := by
  refine ⟨fun s t ht => ?_, fun prog labels s h => ?_⟩
  · rw [eq_stepState ht]
    exact stepState_stores s
  · rw [loadProgram_of_inRange (loadProgram_accepted_iff.1 h)]
    exact ⟨rfl, rfl, rfl⟩

/-! ### The loader's table (20_memory.md R44) -/

/-- A table for a program stays one when the program grows. -/
theorem LabelsOk.mono {labels : LabelTable} {m n : Nat} (h : LabelsOk labels m) (hmn : m ≤ n) :
    LabelsOk labels n :=
  ⟨h.1, fun p hp => (h.2 p hp).trans hmn⟩

theorem LabelsOk.bindLabel {labels : LabelTable} {n i : Nat} (h : LabelsOk labels n) (name : Token)
    (hi : i ≤ n) : LabelsOk (bindLabel labels name i) n :=
  ⟨bindLabel_nodup name i h.1, bindLabel_range name hi h.2⟩

/-- A label is bound to the length so far, and the program only grows: every source line keeps the form. -/
theorem loadLines_labelsOk (src : List Line) {prog : List Line} {labels : LabelTable}
    (h : LabelsOk labels prog.length) :
    LabelsOk (loadLines prog labels src).2 (loadLines prog labels src).1.length := by
  induction src generalizing prog labels with
  | nil => exact h
  | cons l ls ih =>
    rw [loadLines]
    cases classify l with
    | blank => exact ih h
    | label name => exact ih (h.bindLabel name le_rfl)
    | instr line => exact ih (h.mono (by simp))

theorem loadSourceText_labelsOk (src : List Line) :
    LabelsOk (loadSourceText src).2 (loadSourceText src).1.length :=
  loadLines_labelsOk src ⟨List.nodup_nil, nofun⟩

/-- Settles O37: the loader keeps the table's form, and a load asks for the range alone. -/
theorem loaderOutputIsAcceptedByProgramLoad : Obligations.LoaderOutputIsAcceptedByProgramLoad := by
  intro src s
  have hok := loadSourceText_labelsOk src
  exact ⟨hok, loadProgram_accepted_iff.2 hok.2⟩

/-! ### A line stored where the next step fetches -/

theorem placeLine_fetch (s : State) (line : Line) : (s.placeLine line).fetch = some line :=
  storeLine_self s.prog s.pc line

/-- The next step fetches the stored line, and a session that would end before it was dropped. -/
theorem placeLine_willStep (s : State) (line : Line) : (s.placeLine line).willStep := by
  refine ⟨idle_of_fetch (placeLine_fetch s line), fun ses hses => ?_⟩
  exact of_decide_eq_true (Option.mem_filter_iff.1 hses).2

/-- Settles O46, by the laws of storing a line. -/
theorem storedFetchWordIsWhatTheNextStepFetches : Obligations.StoredFetchWordIsWhatTheNextStepFetches := by
  intro s nbits w
  refine ⟨placeLine_fetch s _, placeLine_willStep s _, fun _ => rfl, ⟨rfl, rfl⟩, rfl, rfl, ?_⟩
  exact fun j line hj hline => storeLine_other s.prog _ line hj hline

end Sys2Proof.Machine
end

section
/-! PROOFS. Family 30_encoding.md: the tokenizer, the decoder with its encoder, literals, the loader's
grammar, and a line read back from its word. -/

namespace Sys2Proof.Machine

/-! ### Decoding what was encoded (R72, R74, R80) -/

theorem tokens_encode (i : Instr) : tokens (encode i) = i.opcode.mnemonic :: i.operandTokens := by
  cases i with
  | add r1 r2 => exact Laws.EncodingTokens.add r1 r2
  | sub r1 r2 => exact Laws.EncodingTokens.sub r1 r2
  | mul r1 r2 => exact Laws.EncodingTokens.mul r1 r2
  | div r1 r2 => exact Laws.EncodingTokens.div r1 r2
  | load src rd => exact Laws.EncodingTokens.load src rd
  | jmp k => exact Laws.EncodingTokens.jmp k
  | jz k => exact Laws.EncodingTokens.jz k
  | jnz k => exact Laws.EncodingTokens.jnz k
  | jc k => exact Laws.EncodingTokens.jc k
  | jnc k => exact Laws.EncodingTokens.jnc k
  | print r => exact Laws.EncodingTokens.print r

theorem decodeRR_spelling (policy : ResOperandPolicy) (mk : RegName → RegName → Instr) (r1 r2 : RegName) :
    decodeRR policy mk r1.spelling r2.spelling = .ok (mk r1 r2) := by
  simp [decodeRR, regOperand_spelling]

theorem decodeR_spelling (policy : ResOperandPolicy) (mk : RegName → Instr) (r : RegName) :
    decodeR policy mk r.spelling = .ok (mk r) := by
  simp [decodeR, regOperand_spelling]

theorem decodeLD_spelling {policy : ResOperandPolicy} (mk : Src → RegName → Instr) (src : Src) {rd : RegName}
    (h : wellFormedDest policy rd = true) :
    decodeLD policy mk src.spelling rd.spelling = .ok (mk src rd) := by
  simp [decodeLD, loadSource_spelling, regOperand_dest_spelling, h]

/-- A literal target in range resolves to its value, unless a label of that spelling hides it (R67, R130). -/
theorem resolveTarget_decimal {labels : LabelTable} {n k : Nat} (hk : k ≤ n)
    (hl : labelLookup labels (decimal k) = none ∨ labelLookup labels (decimal k) = some k) :
    resolveTarget labels n (decimal k) = .ok k := by
  obtain hl | hl := hl
  · simp [resolveTarget, hl, literal_decimal, hk]
  · simp [resolveTarget, hl]

theorem decodeJ_decimal {labels : LabelTable} {n k : Nat} (mk : Nat → Instr) (hk : k ≤ n)
    (hl : labelLookup labels (decimal k) = none ∨ labelLookup labels (decimal k) = some k) :
    decodeJ labels n mk (decimal k) = .ok (mk k) := by
  simp [decodeJ, resolveTarget_decimal hk hl]

/-- The operand tokens of an instruction decode to it, by format: RR, LD, R, and J for the rest (R74). -/
theorem decodeOperands_operandTokens {policy : ResOperandPolicy} {labels : LabelTable} {n : Nat} {i : Instr}
    (hwf : i.wellFormed policy n = true)
    (hl : ∀ k, target i = some k →
      labelLookup labels (decimal k) = none ∨ labelLookup labels (decimal k) = some k) :
    decodeOperands policy labels n i.opcode i.operandTokens = .ok i := by
  cases i with
  | add r1 r2 | sub r1 r2 | mul r1 r2 | div r1 r2 => exact decodeRR_spelling policy _ r1 r2
  | load src rd => exact decodeLD_spelling _ src hwf
  | print r => exact decodeR_spelling policy _ r
  | jmp k | jz k | jnz k | jc k | jnc k =>
    exact decodeJ_decimal _ (target_le_of_wellFormed hwf rfl) (hl k rfl)

/-- Settles O27: the line's tokens are the mnemonic and the operand tokens, and these decode back. -/
theorem decodeOfEncodeIsTheInstruction : Obligations.DecodeOfEncodeIsTheInstruction := by
  intro policy labels n i hwf hl
  rw [decodeWith, tokens_encode, decodeTokens_mnemonic]
  exact decodeOperands_operandTokens hwf hl

/-! ### The opcode token and the order of the checks (R62, R75) -/

/-- A token is no opcode exactly when it differs from every mnemonic (R62, R73). -/
theorem opcode_ofToken_eq_none_iff {tok : Token} :
    Opcode.ofToken tok = none ↔ ∀ o : Opcode, tok ≠ o.mnemonic := by
  constructor
  · rintro h o rfl
    rw [opcode_ofToken_mnemonic] at h
    cases h
  · intro h
    cases ho : Opcode.ofToken tok with
    | none => rfl
    | some o => exact absurd (mnemonic_of_ofToken ho).symm (h o)

theorem decodeTokens_unknownOpcode (policy : ResOperandPolicy) (labels : LabelTable) (n : Nat) {op : Token}
    (operands : List Token) (h : ∀ o : Opcode, op ≠ o.mnemonic) :
    decodeTokens policy labels n (op :: operands) = .error .unknownOpcode := by
  rw [decodeTokens, opcode_ofToken_eq_none_iff.2 h]

/-- What decoding can answer once the opcode `o` is known: an instruction of that opcode, or an error
other than `UnknownOpcode`. -/
def AnswersFor (o : Opcode) : Except ErrorKind Instr → Prop
  | .ok i => i.opcode = o
  | .error e => e ≠ .unknownOpcode

/-- A failing register operand is no `UnknownOpcode` (R68). -/
theorem ne_unknownOpcode_of_regOperand {policy : ResOperandPolicy} {isDest : Bool} {tok : Token} {e : ErrorKind}
    (h : regOperand policy isDest tok = .error e) : e ≠ .unknownOpcode := by
  obtain ⟨r, -, hr⟩ | hr := regOperand_cases policy isDest tok <;> rw [hr] at h <;> cases h
  decide

theorem decodeRR_answersFor {o : Opcode} {mk : RegName → RegName → Instr} (hmk : ∀ r1 r2, (mk r1 r2).opcode = o)
    {policy : ResOperandPolicy} {t1 t2 : Token} : AnswersFor o (decodeRR policy mk t1 t2) := by
  unfold decodeRR
  split
  · exact ne_unknownOpcode_of_regOperand ‹_›
  · split
    · exact ne_unknownOpcode_of_regOperand ‹_›
    · exact hmk _ _

theorem decodeLD_answersFor {o : Opcode} {mk : Src → RegName → Instr} (hmk : ∀ src rd, (mk src rd).opcode = o)
    {policy : ResOperandPolicy} {t1 t2 : Token} : AnswersFor o (decodeLD policy mk t1 t2) := by
  unfold decodeLD
  obtain ⟨src, hs⟩ | hs := loadSource_cases t1 <;> rw [hs]
  · dsimp only
    split
    · exact ne_unknownOpcode_of_regOperand ‹_›
    · exact hmk _ _
  · exact nofun

theorem decodeJ_answersFor {o : Opcode} {mk : Nat → Instr} (hmk : ∀ k, (mk k).opcode = o)
    {labels : LabelTable} {n : Nat} {t1 : Token} : AnswersFor o (decodeJ labels n mk t1) := by
  unfold decodeJ
  obtain ⟨k, hk, -⟩ | hk := resolveTarget_cases labels n t1 <;> rw [hk]
  · exact hmk k
  · exact nofun

theorem decodeR_answersFor {o : Opcode} {mk : RegName → Instr} (hmk : ∀ r, (mk r).opcode = o)
    {policy : ResOperandPolicy} {t1 : Token} : AnswersFor o (decodeR policy mk t1) := by
  unfold decodeR
  split
  · exact ne_unknownOpcode_of_regOperand ‹_›
  · exact hmk _

theorem decodeOperands_answersFor (policy : ResOperandPolicy) (labels : LabelTable) (n : Nat) (o : Opcode)
    (operands : List Token) : AnswersFor o (decodeOperands policy labels n o operands) := by
  unfold decodeOperands
  split
  case h_1 | h_2 | h_3 | h_4 =>
    apply decodeRR_answersFor
    exact fun _ _ => rfl
  case h_5 =>
    apply decodeLD_answersFor
    exact fun _ _ => rfl
  case h_11 =>
    apply decodeR_answersFor
    exact fun _ => rfl
  case h_12 => exact nofun
  all_goals
    apply decodeJ_answersFor
    exact fun _ => rfl

/-- Settles O31: past a known opcode no answer is `UnknownOpcode`, and an instruction has that opcode. -/
theorem opcodeTokenSelectsByExactEquality : Obligations.OpcodeTokenSelectsByExactEquality := by
  intro policy labels n line op operands ht
  rw [decodeWith, ht]
  cases ho : Opcode.ofToken op with
  | none =>
    have hno := opcode_ofToken_eq_none_iff.1 ho
    have hd := decodeTokens_unknownOpcode policy labels n operands hno
    exact ⟨iff_of_true hno hd, fun i hi => nomatch hd.symm.trans hi⟩
  | some o =>
    obtain rfl := mnemonic_of_ofToken ho
    have ha := decodeOperands_answersFor policy labels n o operands
    rw [decodeTokens_mnemonic]
    refine ⟨iff_of_false (fun h => h o rfl) fun h => ?_, fun i hi => ?_⟩
    · exact (h ▸ ha : AnswersFor o (.error .unknownOpcode)) rfl
    · exact congrArg _ (hi ▸ ha : AnswersFor o (.ok i)).symm

/-- A direct step on a line in error commits the pc advance and the record alone (60_exceptions.md R204). -/
theorem step_of_decodeLine_error {s : State} {line : Line} {e : ErrorKind} (hs : s.session = none)
    (hf : s.fetch = some line) (hd : s.decodeLine line = .error e) :
    step s = .next { s with pc := s.pc + 1, result := some (.fault (s.beginStep.faultRecord e)) } := by
  have hstep : stepState s = stepOnceState s := by simp [stepState, hs]
  rw [step_eq, hstep, stepOnceState_error hf hd]
  rfl

/-- Settles O12, by the decoder's three checks before the operands and the step on a line in error. -/
theorem illegalLinesRaiseTheFirstFailingCheck : Obligations.IllegalLinesRaiseTheFirstFailingCheck := by
  intro s line hf hs
  have hdecode : s.decodeLine line =
      decodeTokens Config.resOperandPolicy s.labels s.prog.length (tokens line) := rfl
  refine ⟨fun ht => ?_, fun op operands ht hop => ?_, fun o operands ht hlen => ?_, fun e hd => ?_⟩
  · rw [hdecode, ht]
    rfl
  · rw [hdecode, ht, decodeTokens_unknownOpcode _ _ _ _ hop]
  · rw [hdecode, ht, decodeTokens_mnemonic, decodeOperands_arity _ _ _ _ _ hlen]
  · exact ⟨_, rfl, step_of_decodeLine_error hs hf hd⟩

/-- Settles O28, by the lemma that the invariant's pc bound rests on. -/
theorem decodedInstructionsAreWellFormed : Obligations.DecodedInstructionsAreWellFormed :=
  fun _ _ _ _ _ hl hd => decodeWith_wellFormed hl hd

/-! ### Tokens as maximal runs (R61) -/

/-- The six whitespace characters of R61 (the spec's decision D4). -/
theorem isSpace_iff (c : Char) : isSpace c = true ↔ c ∈ [' ', '\t', '\n', '\x0b', '\x0c', '\r'] := by
  simp [isSpace, Char.ext_iff, UInt32.ext_iff]

/-- A run with the gap after it. -/
def IsPart (p : Token × Line) : Prop :=
  p.1 ≠ [] ∧ (∀ c ∈ p.1, isSpace c = false) ∧ p.2.all isSpace = true

/-- The text of runs with their gaps. -/
def partsText (parts : List (Token × Line)) : Line := (parts.map (fun p => p.1 ++ p.2)).flatten

theorem partsText_cons (p : Token × Line) (ps : List (Token × Line)) :
    partsText (p :: ps) = p.1 ++ (p.2 ++ partsText ps) := by
  simp [partsText]

/-- A line as R61 cuts it: a leading gap, then runs with a gap between any two. -/
def IsCut (lead : Line) (parts : List (Token × Line)) : Prop :=
  lead.all isSpace = true ∧ (∀ p ∈ parts, IsPart p) ∧ ∀ p ∈ parts.dropLast, p.2 ≠ []

/-- A leading gap yields no token. -/
theorem tokens_gap_append {w : Line} (h : w.all isSpace = true) (rest : Line) : tokens (w ++ rest) = tokens rest := by
  rw [tokens, tokensFrom_gap w h]
  split <;> rfl

/-- A run with a gap after it, or at the end of the line, is the first token. -/
theorem tokens_part_append {p : Token × Line} (h : IsPart p) {rest : Line} (hgap : p.2 = [] → rest = []) :
    tokens (p.1 ++ (p.2 ++ rest)) = p.1 :: tokens rest := by
  obtain ⟨hne, hrun, hw⟩ := h
  rw [tokens, tokensFrom_nonspace p.1 hrun, List.append_nil, tokensFrom_gap p.2 hw]
  split
  · rename_i hnil
    rw [hgap hnil, tokensFrom, closeToken_reverse p.1 hne]
    rfl
  · rw [closeToken_reverse p.1 hne]
    rfl

theorem tokens_partsText (parts : List (Token × Line)) (hp : ∀ p ∈ parts, IsPart p)
    (hgap : ∀ p ∈ parts.dropLast, p.2 ≠ []) : tokens (partsText parts) = parts.map Prod.fst := by
  induction parts with
  | nil => rfl
  | cons p ps ih =>
    rw [List.forall_mem_cons] at hp
    have hend : p.2 = [] → partsText ps = [] := by
      cases ps with
      | nil => exact fun _ => rfl
      | cons q qs => exact fun hnil => absurd hnil (hgap p (by simp))
    have hrest : ∀ q ∈ ps.dropLast, q.2 ≠ [] := by
      cases ps with
      | nil => exact nofun
      | cons q qs => exact fun q hq => hgap q (List.mem_cons_of_mem _ hq)
    rw [partsText_cons, tokens_part_append hp.1 hend, ih hp.2 hrest, List.map_cons]

/-- A whitespace character before a cut line lengthens its leading gap. -/
theorem IsCut.cons_space {lead : Line} {parts : List (Token × Line)} (h : IsCut lead parts) {c : Char}
    (hc : isSpace c = true) : IsCut (c :: lead) parts := by
  obtain ⟨hlead, hrest⟩ := h
  exact ⟨by simp [hc, hlead], hrest⟩

/-- Another character before a cut line lengthens its first run, or makes a run before its leading gap. -/
theorem IsCut.cons_nonspace {lead : Line} {parts : List (Token × Line)} (h : IsCut lead parts) {c : Char}
    (hc : isSpace c = false) :
    ∃ parts', IsCut [] parts' ∧ c :: (lead ++ partsText parts) = partsText parts' := by
  obtain ⟨hlead, hparts, hgaps⟩ := h
  have hnew : IsPart ([c], lead) := ⟨by simp, by simpa using hc, hlead⟩
  match lead, parts with
  | lead, [] =>
    exact ⟨[([c], lead)], ⟨rfl, by simpa using hnew, nofun⟩, by simp [partsText]⟩
  | d :: ds, p :: ps =>
    refine ⟨([c], d :: ds) :: p :: ps, ⟨rfl, List.forall_mem_cons.2 ⟨hnew, hparts⟩, ?_⟩, by simp [partsText]⟩
    rw [List.dropLast_cons_cons]
    exact List.forall_mem_cons.2 ⟨by simp, hgaps⟩
  | [], p :: ps =>
    obtain ⟨⟨-, hrun, hw⟩, hps⟩ := List.forall_mem_cons.1 hparts
    have hlonger : IsPart (c :: p.1, p.2) := ⟨by simp, List.forall_mem_cons.2 ⟨hc, hrun⟩, hw⟩
    refine ⟨(c :: p.1, p.2) :: ps, ⟨rfl, List.forall_mem_cons.2 ⟨hlonger, hps⟩, ?_⟩, by simp [partsText]⟩
    cases ps with
    | nil => exact nofun
    | cons q qs =>
      rw [List.dropLast_cons_cons] at hgaps ⊢
      exact List.forall_mem_cons.2 (List.forall_mem_cons.1 hgaps)

theorem exists_cut (line : Line) : ∃ lead parts, IsCut lead parts ∧ line = lead ++ partsText parts := by
  induction line with
  | nil => exact ⟨[], [], ⟨rfl, nofun, nofun⟩, rfl⟩
  | cons c cs ih =>
    obtain ⟨lead, parts, hcut, rfl⟩ := ih
    cases hc : isSpace c with
    | true => exact ⟨c :: lead, parts, hcut.cons_space hc, rfl⟩
    | false =>
      obtain ⟨parts', hcut', heq⟩ := hcut.cons_nonspace hc
      exact ⟨[], parts', hcut', heq⟩

/-- Settles O30: a cut line's tokens are its runs, and every line can be cut, character by character. -/
theorem tokensAreTheMaximalRuns : Obligations.TokensAreTheMaximalRuns := by
  refine ⟨isSpace_iff, fun lead parts hlead hparts hgaps => ?_, fun line => ?_⟩
  · exact (tokens_gap_append hlead _).trans (tokens_partsText parts hparts hgaps)
  · obtain ⟨lead, parts, ⟨hlead, hparts, hgaps⟩, heq⟩ := exists_cut line
    exact ⟨lead, parts, hlead, hparts, hgaps, heq⟩

/-! ### Literals (R66) -/

theorem isDigit_iff (c : Char) : isDigit c = true ↔ '0'.toNat ≤ c.toNat ∧ c.toNat ≤ '9'.toNat :=
  decide_eq_true_iff

theorem exists_literal_iff (tok : Token) :
    (∃ k, literal tok = some k) ↔ tok ≠ [] ∧ ∀ c ∈ tok, isDigit c = true := by
  constructor
  · rintro ⟨k, hk⟩
    obtain ⟨hne, hd, -⟩ := digits_of_literal hk
    exact ⟨hne, hd⟩
  · exact fun ⟨hne, hd⟩ => ⟨_, literal_of_digits tok hne hd⟩

/-- One more digit at the end of a literal. -/
theorem literal_snoc {tok : Token} {c : Char} {k : Nat} (hk : literal tok = some k) (hc : isDigit c = true) :
    literal (tok ++ [c]) = some (10 * k + (c.toNat - '0'.toNat)) := by
  obtain ⟨-, hd, rfl⟩ := digits_of_literal hk
  have hall : ∀ d ∈ tok ++ [c], isDigit d = true :=
    List.forall_mem_append.2 ⟨hd, List.forall_mem_singleton.2 hc⟩
  rw [literal_of_digits _ (by simp) hall, decimalValue_snoc, Nat.mul_comm]
  rfl

/-- A zero before a literal does not change its value. -/
theorem literal_zero_cons {tok : Token} {k : Nat} (hk : literal tok = some k) : literal ('0' :: tok) = some k := by
  obtain ⟨-, hd, rfl⟩ := digits_of_literal hk
  rw [literal_of_digits _ (by simp) (List.forall_mem_cons.2 ⟨by decide, hd⟩)]
  rfl

theorem literal_singleton {c : Char} (hc : isDigit c = true) : literal [c] = some (c.toNat - '0'.toNat) := by
  have hvalue : decimalValue 0 [c] = 0 * 10 + (c.toNat - 0x30) := decimalValue_snoc [] c 0
  rw [literal_of_digits [c] (by simp) (List.forall_mem_singleton.2 hc), hvalue, Nat.zero_mul, Nat.zero_add]
  rfl

/-- Settles O32, by the value of a spelling with a digit more at either end. -/
theorem literalsAreUnsignedDecimal : Obligations.LiteralsAreUnsignedDecimal := by
  refine ⟨fun tok => ?_, fun tok c k => literal_snoc, fun c => literal_singleton, fun k => ?_⟩
  · simp only [← isDigit_iff]
    exact exists_literal_iff tok
  · exact ⟨literal_decimal k, literal_zero_cons (literal_decimal k)⟩

/-! ### Comments and blanks (R84, R85) -/

theorem stripComment_append_semicolon (a b : Line) : stripComment (a ++ ';' :: b) = stripComment a := by
  induction a with
  | nil => rfl
  | cons c cs ih =>
    unfold stripComment at ih ⊢
    rw [List.cons_append, List.takeWhile_cons, List.takeWhile_cons, ih]

/-- A line without a semicolon has no comment. -/
theorem stripComment_eq_self {a : Line} (h : ';' ∉ a) : stripComment a = a := by
  refine List.takeWhile_eq_self_iff.2 fun c hc => ?_
  exact decide_eq_true fun heq => h (heq ▸ hc)

theorem semicolon_not_mem_gap {w : Line} (h : w.all isSpace = true) : ';' ∉ w := fun hm =>
  absurd (List.all_eq_true.1 h _ hm) (by decide)

theorem dropWhile_eq_nil_of_gap {w : Line} (h : w.all isSpace = true) : w.dropWhile isSpace = [] :=
  List.dropWhile_eq_nil_iff.2 (List.all_eq_true.1 h)

theorem trim_gap {w : Line} (h : w.all isSpace = true) : trim w = [] := by
  rw [trim, dropWhile_eq_nil_of_gap h]
  rfl

/-- Whitespace around a line makes no difference to what trimming leaves of it (R85). -/
theorem trim_surrounded {w w' : Line} (hw : w.all isSpace = true) (hw' : w'.all isSpace = true) (a : Line) :
    trim (w ++ a ++ w') = trim a := by
  rw [List.append_assoc, trim, dropWhile_gap hw, List.dropWhile_append]
  split
  · rename_i hnil
    rw [dropWhile_eq_nil_of_gap hw', trim, List.isEmpty_iff.1 hnil]
  · exact trimRight_gap hw' _

theorem trim_eq_self {a : Line} (hhead : ∀ c, a.head? = some c → isSpace c = false)
    (hlast : ∀ c, a.getLast? = some c → isSpace c = false) : trim a = a := by
  rw [trim, dropWhile_eq_self hhead, trimRight_eq_self hlast]

theorem cleanLine_surrounded {a w w' : Line} (ha : ';' ∉ a) (hw : w.all isSpace = true)
    (hw' : w'.all isSpace = true) : cleanLine (w ++ a ++ w') = trim a := by
  have hno : ';' ∉ w ++ a ++ w' := by
    simp [ha, semicolon_not_mem_gap hw, semicolon_not_mem_gap hw']
  rw [cleanLine, stripComment_eq_self hno, trim_surrounded hw hw']

theorem cleanLine_of_no_semicolon {a : Line} (ha : ';' ∉ a) : cleanLine a = trim a := by
  rw [cleanLine, stripComment_eq_self ha]

/-- A source line's kind depends on what cleaning leaves of it alone. -/
theorem classify_congr {l l' : Line} (h : cleanLine l = cleanLine l') : classify l = classify l' := by
  rw [classify, classify, h]

/-- Settles O34, by what comment removal and trimming do to a line with a comment or with gaps around it. -/
theorem commentsAndSurroundingBlanksAreIgnored : Obligations.CommentsAndSurroundingBlanksAreIgnored := by
  refine ⟨fun a b => ?_, fun a w w' ha hw hw' hhead hlast => ?_, fun a w w' ha hw hw' => ?_, fun w hw => ?_⟩
  · have hclean : cleanLine (a ++ ';' :: b) = cleanLine a := congrArg trim (stripComment_append_semicolon a b)
    exact ⟨hclean, classify_congr hclean⟩
  · rw [cleanLine_surrounded ha hw hw', trim_eq_self hhead hlast]
  · exact classify_congr ((cleanLine_surrounded ha hw hw').trans (cleanLine_of_no_semicolon ha).symm)
  · have hclean : cleanLine w = [] := (cleanLine_of_no_semicolon (semicolon_not_mem_gap hw)).trans (trim_gap hw)
    rw [classify, hclean]
    rfl

/-! ### The loader's program and labels (R86, R87) -/

/-- The loader appends the instruction lines, whatever labels it meets. -/
theorem loadLines_prog (prog : List Line) (labels : LabelTable) (src : List Line) :
    (loadLines prog labels src).1 = prog ++ src.filterMap instrLine := by
  induction src generalizing prog labels with
  | nil => simp [loadLines]
  | cons l ls ih =>
    rw [loadLines, List.filterMap_cons, instrLine]
    cases classify l with
    | blank => exact ih _ _
    | label name => exact ih _ _
    | instr line => simp [ih]

/-- What makes a source line an instruction line, and the text it is stored as (R87). -/
theorem instrLine_eq_some_iff (src line : Line) : instrLine src = some line ↔
    line = cleanLine src ∧ line ≠ [] ∧ line.getLast? ≠ some ':' := by
  unfold instrLine classify
  cases hlast : (cleanLine src).getLast? with
  | none =>
    rw [List.getLast?_eq_none_iff] at hlast
    exact iff_of_false nofun fun ⟨heq, hne, _⟩ => hne (heq.trans hlast)
  | some c =>
    have hne : cleanLine src ≠ [] := fun hnil => by simp [hnil] at hlast
    by_cases hc : c = ':'
    · subst hc
      exact iff_of_false (by simp) fun ⟨heq, _, hcolon⟩ => hcolon (heq ▸ hlast)
    · simp only [hc, if_false, Option.some.injEq]
      refine ⟨?_, fun ⟨heq, _⟩ => heq.symm⟩
      rintro rfl
      exact ⟨rfl, hne, by simpa [hlast] using hc⟩

/-- Settles O35: the loader's program by induction over the source, and one line by its last character. -/
theorem loaderEmitsTheInstructionLinesInOrder : Obligations.LoaderEmitsTheInstructionLinesInOrder :=
  ⟨fun src => loadLines_prog [] [] src, instrLine_eq_some_iff⟩

/-- Lines that do not declare a name leave its binding as it was. -/
theorem loadLines_lookup_of_not_declared {src : List Line} {name : Token}
    (h : ∀ l ∈ src, classify l ≠ .label name) (prog : List Line) (labels : LabelTable) :
    labelLookup (loadLines prog labels src).2 name = labelLookup labels name := by
  induction src generalizing prog labels with
  | nil => rfl
  | cons l ls ih =>
    obtain ⟨hl, hls⟩ := List.forall_mem_cons.1 h
    rw [loadLines]
    cases hc : classify l with
    | blank => exact ih hls _ _
    | instr line => exact ih hls _ _
    | label other =>
      have hne : other ≠ name := fun heq => hl (heq ▸ hc)
      exact (ih hls _ _).trans (labelLookup_bindLabel_other _ hne)

theorem loadLines_cons_label {decl : Line} {name : Token} (h : classify decl = .label name) (prog : List Line)
    (labels : LabelTable) (post : List Line) :
    loadLines prog labels (decl :: post) = loadLines prog (bindLabel labels name prog.length) post := by
  rw [loadLines, h]

/-- The last declaration of a name binds it to the number of instruction lines before it. -/
theorem loadSourceText_lookup_declared {pre post : List Line} {decl : Line} {name : Token}
    (hdecl : classify decl = .label name) (hpost : ∀ l ∈ post, classify l ≠ .label name) :
    labelLookup (loadSourceText (pre ++ decl :: post)).2 name = some (pre.filterMap instrLine).length := by
  rw [loadSourceText, loadLines_append, loadLines_cons_label hdecl, loadLines_lookup_of_not_declared hpost,
    labelLookup_bindLabel_self, loadLines_prog, List.nil_append]

theorem exists_label_iff (decl : Line) :
    (cleanLine decl).getLast? = some ':' ↔ ∃ name, classify decl = .label name := by
  simp [classify_label_iff]

/-- The name is the cleaned line without its final colon and without the whitespace before it (R86). -/
theorem classify_label_iff_parts (decl : Line) (name : Token) : classify decl = .label name ↔
    ∃ w : Line, cleanLine decl = name ++ w ++ [':'] ∧ w.all isSpace = true ∧
      ∀ c, name.getLast? = some c → isSpace c = false := by
  rw [classify_label_iff]
  constructor
  · rintro ⟨hlast, rfl⟩
    obtain ⟨w, hsplit, hw, hend⟩ := trimRight_split (cleanLine decl).dropLast
    refine ⟨w, ?_, hw, hend⟩
    rw [← hsplit, List.dropLast_append_getLast? _ hlast]
  · rintro ⟨w, hclean, hw, hend⟩
    rw [hclean]
    refine ⟨List.getLast?_concat, ?_⟩
    rw [List.dropLast_concat, trimRight_gap hw, trimRight_eq_self hend]

/-- Settles O36: which line declares, and the loader before, at and after a name's last declaration. -/
theorem labelsAreBoundToTheNextInstruction : Obligations.LabelsAreBoundToTheNextInstruction :=
  ⟨exists_label_iff, classify_label_iff_parts, fun _ _ _ _ => loadSourceText_lookup_declared,
    fun _ _ h => loadLines_lookup_of_not_declared h [] []⟩

/-! ### A line read back from its word -/

/-- A line that has a word: every character is a byte that is not zero. -/
def IsByteLine (line : Line) : Prop := ∀ c ∈ line, 0 < c.toNat ∧ c.toNat < 256

theorem bytesOfWord_wordOfLine {line : Line} (h : IsByteLine line) :
    bytesOfWord line.length (wordOfLine line) = line.map Char.toNat := by
  induction line with
  | nil => rfl
  | cons c cs ih =>
    obtain ⟨⟨-, hc⟩, hcs⟩ := List.forall_mem_cons.1 h
    rw [List.length_cons, bytesOfWord, wordOfLine, List.map_cons, ← ih hcs]
    congr 2 <;> omega

/-- The last byte of such a line is not zero, so cutting off zero bytes cuts nothing off. -/
theorem dropWhile_zero_bytes {line : Line} (h : IsByteLine line) :
    (line.map Char.toNat).reverse.dropWhile (fun b => b = 0) = (line.map Char.toNat).reverse := by
  cases hrev : (line.map Char.toNat).reverse with
  | nil => rfl
  | cons b bs =>
    have hmem : b ∈ line.map Char.toNat := List.mem_reverse.1 (hrev ▸ List.mem_cons_self)
    obtain ⟨c, hc, rfl⟩ := List.mem_map.1 hmem
    exact List.dropWhile_cons_of_neg (by simpa using (h c hc).1.ne')

/-- The line of a word of so many bits is the line the word is of. -/
theorem lineOfWord_wordOfLine {line : Line} (h : IsByteLine line) :
    lineOfWord (8 * line.length) (wordOfLine line) = line := by
  have hbytes : (8 * line.length + 7) / 8 = line.length := by omega
  rw [lineOfWord, hbytes, bytesOfWord_wordOfLine h, dropWhile_zero_bytes h, List.reverse_reverse, List.map_map]
  simp [Function.comp_def]

theorem isByteLine_append {l l' : Line} (h : IsByteLine l) (h' : IsByteLine l') : IsByteLine (l ++ l') :=
  List.forall_mem_append.2 ⟨h, h'⟩

theorem isByteLine_mnemonic (o : Opcode) : IsByteLine o.mnemonic := by
  cases o <;> simp [IsByteLine, Opcode.mnemonic]

theorem isByteLine_regName (r : RegName) : IsByteLine r.spelling := by
  cases r <;> simp [IsByteLine, RegName.spelling]

theorem isByteLine_decimal (n : Nat) : IsByteLine (decimal n) := by
  intro c hc
  have hd := decimal_digits n c hc
  simp only [isDigit, decide_eq_true_eq] at hd
  omega

theorem isByteLine_src (src : Src) : IsByteLine src.spelling := by
  cases src with
  | reg r => exact isByteLine_regName r
  | imm n => exact isByteLine_decimal n

theorem isByteLine_joinTokens (ts : List Token) (h : ∀ t ∈ ts, IsByteLine t) : IsByteLine (joinTokens ts) := by
  induction ts with
  | nil => exact nofun
  | cons t rest ih =>
    obtain ⟨ht, hrest⟩ := List.forall_mem_cons.1 h
    cases rest with
    | nil => exact ht
    | cons t' rest' =>
      exact isByteLine_append ht (List.forall_mem_cons.2 ⟨by decide, ih hrest⟩)

theorem isByteLine_operandTokens (i : Instr) : ∀ t ∈ i.operandTokens, IsByteLine t := by
  cases i with
  | add r1 r2 | sub r1 r2 | mul r1 r2 | div r1 r2 =>
    simp [Instr.operandTokens, isByteLine_regName]
  | load src rd => simp [Instr.operandTokens, isByteLine_src, isByteLine_regName]
  | print r => simp [Instr.operandTokens, isByteLine_regName]
  | jmp k | jz k | jnz k | jc k | jnc k => simp [Instr.operandTokens, isByteLine_decimal]

theorem isByteLine_encode (i : Instr) : IsByteLine (encode i) :=
  isByteLine_joinTokens _ (List.forall_mem_cons.2 ⟨isByteLine_mnemonic _, isByteLine_operandTokens i⟩)

/-- Settles O45: the word gives the line back, and the line decodes to its instruction. -/
theorem tableWordOfAnInstructionReadsBack : Obligations.TableWordOfAnInstructionReadsBack := by
  intro i hwf
  have hd : decode [] 1 (encode i) = .ok i :=
    decodeOfEncodeIsTheInstruction _ [] 1 i hwf fun _ _ => Or.inl rfl
  rw [decodeTableWord, Instr.bits, lineOfWord_wordOfLine (isByteLine_encode i), hd]

/-! ### The spec's sample lines -/

/-- Settles O29, by evaluating the decoder on the nine lines. -/
theorem sampleLinesDecodeAsTheSpecWritesThem : Obligations.SampleLinesDecodeAsTheSpecWritesThem :=
  ⟨rfl, rfl, rfl, rfl, rfl, rfl, rfl, rfl, rfl⟩

end Sys2Proof.Machine
end

section
/-! PROOFS. Family 40_alu.md: the lines of format RR, and what ADD, SUB, MUL and DIV write and leave as
it was. -/

namespace Sys2Proof.Machine

/-! ### Lines of format RR (30_encoding.md R68, R72, R74, R75) -/

theorem regOperand_noRegister {tok : Token} (h : NoRegister tok) (policy : ResOperandPolicy) (isDest : Bool) :
    regOperand policy isDest tok = .error .unknownRegister := by
  obtain ⟨r, hr, -⟩ | herr := regOperand_cases policy isDest tok
  · exact absurd (spelling_of_ofToken hr).symm (h r)
  · exact herr

/-- One operand that is no register name is enough: the error is the same for either (R68). -/
theorem decodeRR_noRegister {t1 t2 : Token} (h : NoRegister t1 ∨ NoRegister t2) (policy : ResOperandPolicy)
    (mk : RegName → RegName → Instr) : decodeRR policy mk t1 t2 = .error .unknownRegister := by
  obtain h1 | h2 := h
  · rw [decodeRR, regOperand_noRegister h1]
  · obtain ⟨r1, -, hr1⟩ | herr := regOperand_cases policy false t1
    · rw [decodeRR, hr1, regOperand_noRegister h2]
    · rw [decodeRR, herr]

/-- An opcode of two operands whose operand pairs go to `decodeRR` has lines of format RR. -/
theorem decodesRR_of_decodeOperands {o : Opcode} {mk : RegName → RegName → Instr} (harity : o.arity = 2)
    (hmk : ∀ policy labels n t1 t2, decodeOperands policy labels n o [t1, t2] = decodeRR policy mk t1 t2) :
    DecodesRR o.mnemonic mk := by
  intro policy labels n line operands ht
  rw [decodeWith, ht, decodeTokens_mnemonic]
  refine ⟨fun hlen => ?_, ?_, ?_⟩
  · exact decodeOperands_arity _ _ _ _ _ (harity ▸ hlen)
  · rintro r1 r2 rfl
    rw [hmk, decodeRR_spelling]
  · rintro t1 t2 rfl hno
    rw [hmk, decodeRR_noRegister hno]

/-! ### What an ALU instruction that succeeds writes, and what it leaves (R100, R105) -/

theorem execAlu_readReg_res {op : AluOp} {r1 r2 : RegName} {s : State} {out : AluOut}
    (h : alu op (s.readReg r1) (s.readReg r2) s.carry = some out) :
    (execAlu op r1 r2 s).readReg .RES = out.res := by
  simp [execAlu_some h]

theorem execAlu_zero {op : AluOp} {r1 r2 : RegName} {s : State} {out : AluOut}
    (h : alu op (s.readReg r1) (s.readReg r2) s.carry = some out) :
    (execAlu op r1 r2 s).zero = decide (((execAlu op r1 r2 s).readReg .RES).toNat = 0) := by
  rw [execAlu_readReg_res h, ← alu_zero h, execAlu_some h, State.writeFlags_zero]

theorem execAlu_frame {op : AluOp} {r1 r2 : RegName} {s : State} {out : AluOut}
    (h : alu op (s.readReg r1) (s.readReg r2) s.carry = some out) :
    SameRegsExcept .RES s (execAlu op r1 r2 s) ∧ (execAlu op r1 r2 s).pc = s.pc ∧
      SameStores s (execAlu op r1 r2 s) ∧ SameRun s (execAlu op r1 r2 s) ∧
      SamePorts s (execAlu op r1 r2 s) := by
  rw [execAlu_some h]
  refine ⟨fun r hr => ?_, rfl, ⟨rfl, rfl⟩, ⟨rfl, rfl, rfl⟩, rfl, rfl⟩
  rw [State.readReg_writeFlags, State.readReg_writeReg_other _ _ _ _ hr]

/-! ### ADD, SUB and MUL (R101 to R103) -/

theorem execAlu_add_res (r1 r2 : RegName) (s : State) :
    ((execAlu .add r1 r2 s).readReg .RES).toNat = ((s.readReg r1).toNat + (s.readReg r2).toNat) % 256 :=
  aluAdd_res _ _

theorem execAlu_sub_res (r1 r2 : RegName) (s : State) :
    (((execAlu .sub r1 r2 s).readReg .RES).toNat : Int) =
      (((s.readReg r1).toNat : Int) - (s.readReg r2).toNat) % 256 :=
  aluSub_res _ _

theorem execAlu_mul_res (r1 r2 : RegName) (s : State) :
    ((execAlu .mul r1 r2 s).readReg .RES).toNat = ((s.readReg r1).toNat * (s.readReg r2).toNat) % 256 :=
  aluMul_res _ _

/-- Two bytes differ by less than 256, so their difference is 0 mod 256 only when they are equal. -/
theorem sub_toNat_emod_eq_zero_iff (v1 v2 : Byte) :
    ((v1.toNat : Int) - v2.toNat) % 256 = 0 ↔ v1.toNat = v2.toNat := by
  have h1 : v1.toNat < 256 := v1.isLt
  have h2 : v2.toNat < 256 := v2.isLt
  omega

theorem execAlu_sub_zero (r1 r2 : RegName) (s : State) :
    (execAlu .sub r1 r2 s).zero = decide ((s.readReg r1).toNat = (s.readReg r2).toNat) := by
  rw [execAlu_zero (op := .sub) rfl, decide_eq_decide, ← sub_toNat_emod_eq_zero_iff, ← execAlu_sub_res,
    Int.natCast_eq_zero]

/-- Settles O1, by the sum and its flags, and the frame of an ALU instruction. -/
theorem addPutsTheSumInResAndSetsBothFlags : Obligations.AddPutsTheSumInResAndSetsBothFlags := by
  refine ⟨decodesRR_of_decodeOperands (o := .add) rfl fun _ _ _ _ _ => rfl, fun r1 r2 s => ?_⟩
  refine ⟨execAlu .add r1 r2 s, exec_eq_effect _ s, execAlu_add_res r1 r2 s, execAlu_add_carry r1 r2 s, ?_,
    execAlu_frame rfl⟩
  rw [execAlu_zero (op := .add) rfl, execAlu_add_res]

/-- Settles O2, by the difference and its flags, and the frame of an ALU instruction. -/
theorem subPutsTheDifferenceInResAndBorrowInCarry : Obligations.SubPutsTheDifferenceInResAndBorrowInCarry := by
  refine ⟨decodesRR_of_decodeOperands (o := .sub) rfl fun _ _ _ _ _ => rfl, fun r1 r2 s => ?_⟩
  exact ⟨execAlu .sub r1 r2 s, exec_eq_effect _ s, execAlu_sub_res r1 r2 s, execAlu_sub_carry r1 r2 s,
    execAlu_sub_zero r1 r2 s, execAlu_frame rfl⟩

/-- Settles O3, by the product and its flags, and the frame of an ALU instruction. -/
theorem mulPutsTheLowByteInResAndOverflowInCarry : Obligations.MulPutsTheLowByteInResAndOverflowInCarry := by
  refine ⟨decodesRR_of_decodeOperands (o := .mul) rfl fun _ _ _ _ _ => rfl, fun r1 r2 s => ?_⟩
  refine ⟨execAlu .mul r1 r2 s, exec_eq_effect _ s, execAlu_mul_res r1 r2 s, execAlu_mul_carry r1 r2 s, ?_,
    execAlu_frame rfl⟩
  rw [execAlu_zero (op := .mul) rfl, execAlu_mul_res]

/-! ### DIV (R104, R108) -/

theorem alu_div_of_ne_zero {v2 : Byte} (h : v2.toNat ≠ 0) (v1 : Byte) (c : Bool) :
    alu .div v1 v2 c = some (aluDiv v1 v2 c) :=
  if_neg fun hz => h (congrArg BitVec.toNat hz)

theorem execAlu_div_res {r1 r2 : RegName} {s : State} (h : (s.readReg r2).toNat ≠ 0) :
    ((execAlu .div r1 r2 s).readReg .RES).toNat = (s.readReg r1).toNat / (s.readReg r2).toNat := by
  rw [execAlu_readReg_res (alu_div_of_ne_zero h _ _), aluDiv_res]

theorem execAlu_div_by_zero {r1 r2 : RegName} {s : State} (h : (s.readReg r2).toNat = 0) :
    execAlu .div r1 r2 s = s.raise .divisionByZero :=
  execAlu_none (alu_none.2 ⟨rfl, h⟩)

/-- A fault record names the operand tokens of the line before pc (60_exceptions.md R202). -/
theorem faultRecord_operands {s : State} {line : Line} (h : s.prog[s.pc - 1]? = some line) (k : ErrorKind) :
    (s.faultRecord k).operands = (tokens line).tail := by
  simp [State.faultRecord, h]

/-- Settles O4: with a divisor that is not 0 the ALU answers the quotient; with 0 all that is done is to
raise the fault. -/
theorem divPutsTheQuotientInResAndKeepsCarry : Obligations.DivPutsTheQuotientInResAndKeepsCarry := by
  refine ⟨decodesRR_of_decodeOperands (o := .div) rfl fun _ _ _ _ _ => rfl,
    fun r1 r2 s => ⟨fun hne => ?_, fun hz => ?_⟩⟩
  · have hout := alu_div_of_ne_zero hne (s.readReg r1) s.carry
    refine ⟨execAlu .div r1 r2 s, exec_eq_effect _ s, execAlu_div_res hne, execAlu_div_carry r1 r2 s, ?_,
      execAlu_frame hout⟩
    rw [execAlu_zero hout, execAlu_div_res hne]
  · refine ⟨s.faultRecord .divisionByZero, ?_, rfl, fun line hline => faultRecord_operands hline _⟩
    exact congrArg Host.Outcome.next (execAlu_div_by_zero hz)

end Sys2Proof.Machine
end

section
/-! PROOFS. Family 41_load.md: the lines of format LD, and what LOAD writes and leaves as it was. -/

namespace Sys2Proof.Machine

/-! ### Lines of format LD (30_encoding.md R68, R69, R74, R75) -/

theorem ofToken_noRegister {tok : Token} (h : NoRegister tok) : RegName.ofToken tok = none :=
  Option.eq_none_iff_forall_ne_some.2 fun r hr => h r (spelling_of_ofToken hr).symm

theorem wellFormedDest_iff (policy : ResOperandPolicy) (rd : RegName) :
    wellFormedDest policy rd = true ↔ policy = .everywhere ∨ rd ≠ .RES := by
  cases policy <;> simp [wellFormedDest]

theorem loadSource_literal {tok : Token} {k : Nat} (h : literal tok = some k) : loadSource tok = .ok (.imm k) := by
  rw [loadSource, ofToken_of_literal h, h]

theorem loadSource_noRegister {tok : Token} (hno : NoRegister tok) (hl : literal tok = none) :
    loadSource tok = .error .unknownRegister := by
  rw [loadSource, ofToken_noRegister hno, hl]

/-- The destination token fails to resolve in two ways: it names no register, or it names RES where the
policy does not let RES be written (R68). -/
theorem regOperand_dest_error {policy : ResOperandPolicy} {tok : Token}
    (h : NoRegister tok ∨ (tok = RegName.spelling .RES ∧ policy = .readOnly)) :
    regOperand policy true tok = .error .unknownRegister := by
  obtain hno | ⟨rfl, rfl⟩ := h
  · exact regOperand_noRegister hno policy true
  · rfl

theorem decodeLD_of_source {policy : ResOperandPolicy} {t1 : Token} {src : Src} {rd : RegName}
    (hsrc : loadSource t1 = .ok src) (hrd : policy = .everywhere ∨ rd ≠ .RES) (mk : Src → RegName → Instr) :
    decodeLD policy mk t1 rd.spelling = .ok (mk src rd) := by
  rw [decodeLD, hsrc, regOperand_dest_spelling, if_pos ((wellFormedDest_iff policy rd).2 hrd)]

/-- One operand that does not resolve is enough: the error is the same for either (R68, R69). -/
theorem decodeLD_error {policy : ResOperandPolicy} {t1 t2 : Token}
    (h : loadSource t1 = .error .unknownRegister ∨ regOperand policy true t2 = .error .unknownRegister)
    (mk : Src → RegName → Instr) : decodeLD policy mk t1 t2 = .error .unknownRegister := by
  obtain h1 | h2 := h
  · rw [decodeLD, h1]
  · obtain ⟨src, hsrc⟩ | herr := loadSource_cases t1
    · rw [decodeLD, hsrc, h2]
    · rw [decodeLD, herr]

/-- An opcode of two operands whose operand pairs go to `decodeLD` has lines of format LD. -/
theorem decodesLD_of_decodeOperands {o : Opcode} {mk : Src → RegName → Instr} (harity : o.arity = 2)
    (hmk : ∀ policy labels n t1 t2, decodeOperands policy labels n o [t1, t2] = decodeLD policy mk t1 t2) :
    DecodesLD o.mnemonic mk := by
  intro policy labels n line operands ht
  rw [decodeWith, ht, decodeTokens_mnemonic]
  refine ⟨fun hlen => ?_, ?_, ?_, ?_⟩
  · exact decodeOperands_arity _ _ _ _ _ (harity ▸ hlen)
  · rintro rs rd rfl hrd
    rw [hmk]
    exact decodeLD_of_source (loadSource_spelling (.reg rs)) hrd mk
  · rintro t1 k rd rfl hlit hrd
    rw [hmk, decodeLD_of_source (loadSource_literal hlit) hrd]
  · rintro t1 t2 rfl hbad
    rw [hmk]
    exact decodeLD_error (hbad.imp (fun ⟨hno, hl⟩ => loadSource_noRegister hno hl) regOperand_dest_error) mk

/-! ### What LOAD writes, and what it leaves (41_load.md R120, R121) -/

theorem srcValue_imm_toNat (n : Nat) (s : State) : (srcValue (.imm n) s).toNat = n % 256 :=
  BitVec.toNat_ofNat n 8

theorem writeReg_frame (rd : RegName) (v : Byte) (s : State) :
    SameRegsExcept rd s (s.writeReg rd v) ∧ SameFlags s (s.writeReg rd v) ∧ (s.writeReg rd v).pc = s.pc ∧
      SameStores s (s.writeReg rd v) ∧ SameRun s (s.writeReg rd v) ∧ SamePorts s (s.writeReg rd v) :=
  ⟨fun r hr => State.readReg_writeReg_other s r rd v hr, ⟨rfl, rfl⟩, rfl, ⟨rfl, rfl⟩, ⟨rfl, rfl, rfl⟩, rfl, rfl⟩

/-- Settles O5: LOAD is one register write of its source's value, and such a write has the frame. -/
theorem loadWritesOneRegisterAndNoFlag : Obligations.LoadWritesOneRegisterAndNoFlag := by
  refine ⟨decodesLD_of_decodeOperands (o := .load) rfl fun _ _ _ _ _ => rfl, fun src rd s => ?_⟩
  refine ⟨s.writeReg rd (srcValue src s), exec_eq_effect _ s, ?_, ?_, writeReg_frame rd _ s⟩
  · rintro n rfl
    rw [State.readReg_writeReg_self, srcValue_imm_toNat]
  · rintro r rfl
    exact State.readReg_writeReg_self s rd _

end Sys2Proof.Machine
end

section
/-! PROOFS. Family 42_control.md: how a jump's target resolves, the lines of format J, and what the jumps
write and leave as it was. -/

namespace Sys2Proof.Machine

/-! ### Targets (42_control.md R130) -/

theorem resolveTarget_of_label {labels : LabelTable} {tok : Token} {i : Nat}
    (h : labelLookup labels tok = some i) (n : Nat) : resolveTarget labels n tok = .ok i := by
  rw [resolveTarget, h]

theorem resolveTarget_of_literal {labels : LabelTable} {tok : Token} {k : Nat}
    (hl : labelLookup labels tok = none) (hk : literal tok = some k) (n : Nat) :
    resolveTarget labels n tok = if k ≤ n then .ok k else .error .invalidJumpTarget := by
  rw [resolveTarget, hl, hk]

theorem resolveTarget_of_no_literal {labels : LabelTable} {tok : Token}
    (hl : labelLookup labels tok = none) (hk : literal tok = none) (n : Nat) :
    resolveTarget labels n tok = .error .invalidJumpTarget := by
  rw [resolveTarget, hl, hk]

/-- `InvalidJumpTarget` is the one error of a target that does not resolve. -/
theorem resolveTarget_error {labels : LabelTable} {n : Nat} {tok : Token} {e : ErrorKind}
    (h : resolveTarget labels n tok = .error e) : e = .invalidJumpTarget := by
  obtain ⟨k, hk, -⟩ | herr := resolveTarget_cases labels n tok
  · cases hk.symm.trans h
  · cases herr.symm.trans h
    rfl

/-! ### Lines of format J (30_encoding.md R72, R74, R75) -/

/-- An opcode of one operand that goes to `decodeJ` has lines of format J. -/
theorem decodesJ_of_decodeOperands {o : Opcode} {mk : Nat → Instr} (harity : o.arity = 1)
    (hmk : ∀ policy labels n t1, decodeOperands policy labels n o [t1] = decodeJ labels n mk t1) :
    DecodesJ o.mnemonic mk := by
  intro policy labels n line operands ht
  rw [decodeWith, ht, decodeTokens_mnemonic]
  refine ⟨fun hlen => ?_, ?_, ?_⟩
  · exact decodeOperands_arity _ _ _ _ _ (harity ▸ hlen)
  · rintro t1 k rfl hk
    rw [hmk, decodeJ, hk]
  · rintro t1 e rfl he
    obtain rfl := resolveTarget_error he
    rw [hmk, decodeJ, he]
    exact ⟨rfl, rfl⟩

theorem decodesJ_jmp : DecodesJ (Opcode.mnemonic .jmp) .jmp :=
  decodesJ_of_decodeOperands rfl fun _ _ _ _ => rfl

theorem decodesJ_jz : DecodesJ (Opcode.mnemonic .jz) .jz :=
  decodesJ_of_decodeOperands rfl fun _ _ _ _ => rfl

theorem decodesJ_jnz : DecodesJ (Opcode.mnemonic .jnz) .jnz :=
  decodesJ_of_decodeOperands rfl fun _ _ _ _ => rfl

theorem decodesJ_jc : DecodesJ (Opcode.mnemonic .jc) .jc :=
  decodesJ_of_decodeOperands rfl fun _ _ _ _ => rfl

theorem decodesJ_jnc : DecodesJ (Opcode.mnemonic .jnc) .jnc :=
  decodesJ_of_decodeOperands rfl fun _ _ _ _ => rfl

theorem exists_decodesJ {o : Opcode} (h : o ∈ [Opcode.jmp, .jz, .jnz, .jc, .jnc]) :
    ∃ mk, DecodesJ o.mnemonic mk := by
  simp only [List.mem_cons, List.not_mem_nil, or_false] at h
  obtain rfl | rfl | rfl | rfl | rfl := h
  · exact ⟨_, decodesJ_jmp⟩
  · exact ⟨_, decodesJ_jz⟩
  · exact ⟨_, decodesJ_jnz⟩
  · exact ⟨_, decodesJ_jc⟩
  · exact ⟨_, decodesJ_jnc⟩

/-- The line of a jump whose target does not resolve is in error; the decoder does not see the flags (R130). -/
theorem decodeLine_jump_error {s : State} {line : Line} {o : Opcode} {tok : Token}
    (ho : o ∈ [Opcode.jmp, .jz, .jnz, .jc, .jnc]) (ht : tokens line = [o.mnemonic, tok])
    (he : resolveTarget s.labels s.prog.length tok = .error .invalidJumpTarget) :
    s.decodeLine line = .error .invalidJumpTarget := by
  obtain ⟨mk, hJ⟩ := exists_decodesJ ho
  obtain ⟨-, -, herr⟩ := hJ Config.resOperandPolicy s.labels s.prog.length line [tok] ht
  exact (herr tok _ rfl he).2

/-- Settles O33: the target's cases one by one, and the step on a line in error. -/
theorem jumpTargetsResolveLabelsFirstAndFaultOtherwise :
    Obligations.JumpTargetsResolveLabelsFirstAndFaultOtherwise := by
  intro labels n tok
  refine ⟨fun i hi => resolveTarget_of_label hi n, fun k hl hk hle => ?_, fun k hl hk hlt => ?_,
    fun hl hk => resolveTarget_of_no_literal hl hk n, ?_⟩
  · rw [resolveTarget_of_literal hl hk, if_pos hle]
  · rw [resolveTarget_of_literal hl hk, if_neg (Nat.not_le.2 hlt)]
  · rintro s line o ho hf ht rfl rfl he
    refine ⟨s.beginStep.faultRecord .invalidJumpTarget, rfl, ?_⟩
    rw [stepOnce_eq, stepOnceState_error hf (decodeLine_jump_error ho ht he)]
    rfl

/-! ### What a jump writes, and what it leaves (42_control.md R131 to R135) -/

theorem execJump_pc (cond : Cond) (k : Nat) (s : State) :
    (execJump cond k s).pc = if condHolds cond s = true then k else s.pc :=
  apply_ite State.pc _ _ _

/-- `execJump_pc` for a condition that asks for a clear flag `b`. -/
theorem execJump_pc_of_not {cond : Cond} {s : State} {b : Bool} (h : condHolds cond s = !b) (k : Nat) :
    (execJump cond k s).pc = if b = true then s.pc else k := by
  rw [execJump_pc, h]
  cases b <;> rfl

theorem execJump_frame (cond : Cond) (k : Nat) (s : State) :
    SameRegs s (execJump cond k s) ∧ SameFlags s (execJump cond k s) ∧ SameStores s (execJump cond k s) ∧
      SameRun s (execJump cond k s) ∧ SamePorts s (execJump cond k s) := by
  obtain h | h := execJump_cases cond k s <;> rw [h] <;>
    exact ⟨fun _ => rfl, ⟨rfl, rfl⟩, ⟨rfl, rfl⟩, ⟨rfl, rfl, rfl⟩, rfl, rfl⟩

/-- Settles O6: the condition of JMP always holds, and a jump has the frame. -/
theorem jmpAlwaysSetsPcToItsTarget : Obligations.JmpAlwaysSetsPcToItsTarget :=
  ⟨decodesJ_jmp, fun k s =>
    ⟨execJump .always k s, exec_eq_effect _ s, execJump_pc .always k s, execJump_frame .always k s⟩⟩

/-- Settles O7, by where a jump leaves pc for each of the four conditions, and the frame of a jump. -/
theorem conditionalJumpsSetPcWhenTheirFlagMatches :
    Obligations.ConditionalJumpsSetPcWhenTheirFlagMatches := by
  refine ⟨⟨decodesJ_jz, decodesJ_jnz, decodesJ_jc, decodesJ_jnc⟩, fun k s => ⟨?_, ?_, ?_, ?_⟩⟩
  · exact ⟨_, exec_eq_effect _ s, execJump_pc .ifZero k s, execJump_frame .ifZero k s⟩
  · exact ⟨_, exec_eq_effect _ s, execJump_pc_of_not (cond := .ifNotZero) rfl k, execJump_frame .ifNotZero k s⟩
  · exact ⟨_, exec_eq_effect _ s, execJump_pc .ifCarry k s, execJump_frame .ifCarry k s⟩
  · exact ⟨_, exec_eq_effect _ s, execJump_pc_of_not (cond := .ifNotCarry) rfl k, execJump_frame .ifNotCarry k s⟩

end Sys2Proof.Machine
end

section
/-! PROOFS. Family 43_print.md: the lines of format R, what PRINT emits and leaves as it was, and what a
step sends to the print port. -/

namespace Sys2Proof.Machine

/-! ### Lines of format R (30_encoding.md R68, R72, R74, R75) -/

/-- An opcode of one operand that goes to `decodeR` has lines of format R. -/
theorem decodesR_of_decodeOperands {o : Opcode} {mk : RegName → Instr} (harity : o.arity = 1)
    (hmk : ∀ policy labels n t1, decodeOperands policy labels n o [t1] = decodeR policy mk t1) :
    DecodesR o.mnemonic mk := by
  intro policy labels n line operands ht
  rw [decodeWith, ht, decodeTokens_mnemonic]
  refine ⟨fun hlen => ?_, ?_, ?_⟩
  · exact decodeOperands_arity _ _ _ _ _ (harity ▸ hlen)
  · rintro r rfl
    rw [hmk, decodeR_spelling]
  · rintro t1 rfl hno
    rw [hmk, decodeR, regOperand_noRegister hno]

/-! ### What PRINT emits, and what it leaves (43_print.md R150) -/

theorem emit_frame (e : PortEvent) (s : State) :
    SameRegs s (s.emit e) ∧ SameFlags s (s.emit e) ∧ (s.emit e).pc = s.pc ∧ SameStores s (s.emit e) ∧
      SameRun s (s.emit e) ∧ (s.emit e).result = s.result :=
  ⟨fun _ => rfl, ⟨rfl, rfl⟩, rfl, ⟨rfl, rfl⟩, ⟨rfl, rfl, rfl⟩, rfl⟩

/-- A line in error emits nothing, whatever its opcode is (60_exceptions.md R203). -/
theorem stepOnceState_error_outputs {s : State} {line : Line} {e : ErrorKind} (hf : s.fetch = some line)
    (hd : s.decodeLine line = .error e) : (stepOnceState s).outputs = s.outputs := by
  rw [stepOnceState_error hf hd, State.raise_outputs, State.beginStep_outputs]

/-- Settles O8: PRINT is one event emitted, an emission has the frame, and a line in error emits nothing. -/
theorem printEmitsOneEventAndMutatesNothing : Obligations.PrintEmitsOneEventAndMutatesNothing := by
  refine ⟨decodesR_of_decodeOperands (o := .print) rfl fun _ _ _ _ => rfl, fun r s => ?_, ?_⟩
  · exact ⟨s.emit (.print r (s.readReg r)), exec_eq_effect _ s, State.emit_outputs s _, emit_frame _ s⟩
  · intro s t line operands e hf _ hd ht
    obtain rfl := Host.Outcome.next.inj ((stepOnce_eq s).symm.trans ht)
    exact stepOnceState_error_outputs hf hd

/-! ### The print port (43_print.md R151) -/

theorem printPort_congr {s t : State} (h : t.outputs = s.outputs) : printPort t = printPort s := by
  rw [printPort, printPort, h]

@[simp] theorem printPort_emit_print (s : State) (r : RegName) (v : Byte) :
    printPort (s.emit (.print r v)) = printPort s ++ [(r, v)] := by
  simp [printPort]

@[simp] theorem printPort_emit_trace (s : State) (snap : Snapshot) :
    printPort (s.emit (.trace snap)) = printPort s := by
  simp [printPort]

@[simp] theorem printPort_trace (s : State) (ses : Session) : printPort (s.trace ses) = printPort s := by
  unfold State.trace
  split
  · exact printPort_emit_trace s _
  · rfl

/-- The run loop after a step emits a snapshot at most, and that goes to the trace port (44_engine.md R170). -/
@[simp] theorem printPort_afterStep (stop cancel : Bool) (ses : Session) (t : State) :
    printPort (afterStep stop cancel ses t) = printPort t := by
  have htrace : printPort (t.trace ses.count) = printPort t := printPort_trace t ses.count
  unfold afterStep
  split
  · rfl
  · dsimp only
    split
    · exact htrace
    · split <;> exact htrace

/-- A step that makes a `Step()` sends the print port what the `Step()` does, in a run or outside one. -/
theorem stepState_printPort {s : State} (h : s.willStep) :
    printPort (stepState s) = printPort (stepOnceState s) := by
  obtain ⟨-, h'⟩ | ⟨hn, -⟩ | ⟨-, ses, stop, cancel, -, -, h'⟩ := stepState_cases s
  · rw [h']
  · exact absurd h hn
  · rw [h', printPort_afterStep]

theorem stepState_printPort_not {s : State} (h : ¬ s.willStep) : printPort (stepState s) = printPort s := by
  obtain ⟨-, -, -, -, hout⟩ := stepState_arch_not h
  exact printPort_congr hout

/-- No instruction but PRINT emits anything. -/
theorem effect_outputs {i : Instr} (h : ∀ r, i ≠ .print r) (s : State) : (effect i s).outputs = s.outputs := by
  obtain ⟨op, r1, r2, out, -, -, he⟩ | ⟨r1, r2, -, -, he⟩ | ⟨src, rd, -, he⟩ | ⟨k, -, he | he⟩ | ⟨r, hr, -⟩ :=
    effect_cases i s
  case inr.inr.inr.inr => exact absurd hr (h r)
  all_goals simp [he]

/-- A `Step()` that runs PRINT emits the register's value, which the pc advance does not touch. -/
theorem stepOnceState_printPort_of_print {s : State} {r : RegName} (h : s.current = some (.ok (.print r))) :
    printPort (stepOnceState s) = printPort s ++ [(r, s.readReg r)] := by
  rw [stepOnceState_of_current h]
  exact printPort_emit_print s.beginStep r _

/-- A `Step()` that runs no PRINT is in error, or runs an instruction that emits nothing. -/
theorem stepOnceState_outputs_of_not_print {s : State} (hw : s.willStep)
    (h : ∀ r, s.current ≠ some (.ok (.print r))) : (stepOnceState s).outputs = s.outputs := by
  obtain ⟨k, -, hk⟩ | ⟨i, hcur, hi⟩ := current_cases hw
  · rw [hk, State.raise_outputs, State.beginStep_outputs]
  · have hnot : ∀ r, i ≠ .print r := by
      rintro r rfl
      exact h r hcur
    rw [hi, effect_outputs hnot, State.beginStep_outputs]

/-- Settles O20: the print port is that of the `Step()`, and of the `Step()`s only one that runs PRINT
sends to it. -/
theorem printPortGainsOneEventPerExecutedPrint : Obligations.PrintPortGainsOneEventPerExecutedPrint := by
  intro s t ht
  obtain rfl := eq_stepState ht
  refine ⟨fun r hw hcur => ?_, fun h => ?_⟩
  · rw [stepState_printPort hw, stepOnceState_printPort_of_print hcur]
  · by_cases hw : s.willStep
    · have hnot : ∀ r, s.current ≠ some (.ok (.print r)) := h.resolve_left (not_not_intro hw)
      rw [stepState_printPort hw, printPort_congr (stepOnceState_outputs_of_not_print hw hnot)]
    · exact stepState_printPort_not hw

end Sys2Proof.Machine
end

section
/-! PROOFS. Family 44_engine.md: the step and one turn of the run loop, then whole runs: how a run
ends, and two runs as one.

A run is followed through three relations: `Tracks` (one architectural state, the same events but for
the snapshots), `InRun` (a run in progress beside its completed steps) and `Ends` (an ended one). -/

namespace Sys2Proof.Machine

/-! ### The step (R161 to R163) -/

theorem eq_stepOnceState {s u : State} (h : stepOnce s = .next u) : u = stepOnceState s :=
  Host.Outcome.next.inj (h.symm.trans (stepOnce_eq s))

theorem eq_runTurnState {stop cancel : Bool} {ses : Session} {s t : State}
    (h : runTurn stop cancel ses s = .next t) : t = runTurnState stop cancel ses s :=
  Host.Outcome.next.inj (h.symm.trans (runTurn_eq stop cancel ses s))

theorem step_direct {s : State} (h : s.session = none) : step s = .next (stepOnceState s) := by
  rw [step_eq, stepState, h]

/-! A turn of the run loop, by the two tests before its step (R165, R167). -/

theorem runTurnState_idle {s : State} (h : s.idle = true) (stop cancel : Bool) (ses : Session) :
    runTurnState stop cancel ses s = s.endRun .halted ses.steps := by
  rw [runTurnState, if_pos h]

theorem runTurnState_noBudget {s : State} {ses : Session} (hi : s.idle = false)
    (hb : ses.maxSteps ≤ ses.steps) (stop cancel : Bool) :
    runTurnState stop cancel ses s = s.endRun .budgetExhausted ses.steps := by
  simp [runTurnState, hi, hb]

theorem runTurnState_step {s : State} {ses : Session} (hi : s.idle = false)
    (hb : ses.steps < ses.maxSteps) (stop cancel : Bool) :
    runTurnState stop cancel ses s = afterStep stop cancel ses (stepOnceState s) := by
  simp [runTurnState, hi, hb]

theorem step_inRun {s : State} {ses : Session} (hs : s.session = some ses) (hi : s.idle = false)
    (hb : ses.steps < ses.maxSteps) :
    step s = .next
      (afterStep (Config.observerStop s.draws) (Config.cancelRequested s.draws) ses (stepOnceState s)) := by
  rw [step_eq, stepState, hs]
  exact congrArg _ (runTurnState_step hi hb _ _)

/-- Settles O9: the `Step()` of such a line is the instruction's effect, directly or inside a turn. -/
theorem stepRunsTheDecodedInstruction : Obligations.StepRunsTheDecodedInstruction := by
  intro s line i hf hd
  have hexec : exec i s.beginStep = .next (stepOnceState s) := by
    rw [exec_eq_effect, stepOnceState_ok hf hd]
  refine ⟨fun hs => (step_direct hs).trans hexec.symm, fun ses hs hb => ?_⟩
  exact ⟨stepOnceState s, hexec, step_inRun hs (idle_of_fetch hf) hb⟩

/-- Settles O11: nothing is fetched there. -/
theorem directStepWhileIdleDoesNothing : Obligations.DirectStepWhileIdleDoesNothing := by
  intro s hs hpc
  have hf : s.fetch = none := (fetch_none_iff s).2 ((idle_eq_true_iff s).2 hpc)
  rw [step_direct hs, stepOnceState_idle hf]
  rfl

/-- An instruction without a target leaves pc as it was. -/
theorem effect_pc_of_no_target {i : Instr} (h : target i = none) (s : State) : (effect i s).pc = s.pc :=
  (effect_pc i s).resolve_right fun ht => nomatch h.symm.trans ht

/-- Settles O15: pc is that of the `Step()`, and there only a jump writes it after the advance. -/
theorem pcAfterAStepIsTheNextIndexOrATakenTarget : Obligations.PcAfterAStepIsTheNextIndexOrATakenTarget := by
  intro s t ht hw
  obtain rfl := eq_stepState ht
  obtain ⟨-, -, -, hpc⟩ := stepState_arch hw
  rw [hpc]
  obtain ⟨k, hcur, hstep⟩ | ⟨i, hcur, hstep⟩ := current_cases hw <;> rw [hcur, hstep]
  · rfl
  · cases i with
    | jmp k => exact execJump_pc .always k s.beginStep
    | jz k => exact execJump_pc .ifZero k s.beginStep
    | jnz k => exact execJump_pc_of_not (cond := .ifNotZero) (s := s.beginStep) rfl k
    | jc k => exact execJump_pc .ifCarry k s.beginStep
    | jnc k => exact execJump_pc_of_not (cond := .ifNotCarry) (s := s.beginStep) rfl k
    | add _ _ | sub _ _ | mul _ _ | div _ _ | load _ _ | print _ =>
      exact effect_pc_of_no_target rfl s.beginStep

/-! ### The run loop after a step (R165 to R172) -/

theorem trace_of_traced {ses : Session} (h : ses.traceEnabled = true) (s : State) :
    s.trace ses = s.emit (.trace (s.snapshot ses)) :=
  if_pos h

theorem trace_of_untraced {ses : Session} (h : ses.traceEnabled = false) (s : State) : s.trace ses = s :=
  if_neg (by simp [h])

theorem afterStep_ok_outputs {ses : Session} {t : State} (h : t.result = some .ok) (stop cancel : Bool) :
    (afterStep stop cancel ses t).outputs = (t.trace ses.count).outputs := by
  rw [afterStep_ok h]
  split <;> rfl

/-- The host asks through the observer of a traced run, or by cancellation (R171, R172). -/
theorem afterStep_asked {stop cancel : Bool} {ses : Session} {t : State} (h : t.result = some .ok)
    (hask : (ses.traceEnabled = true ∧ stop = true) ∨ cancel = true) :
    (afterStep stop cancel ses t).session = none ∧
      (afterStep stop cancel ses t).outcome = some { kind := .cancelled, steps := ses.steps + 1 } := by
  rw [afterStep_ok h, if_pos (by simpa using hask)]
  exact ⟨rfl, rfl⟩

theorem afterStep_notAsked {stop cancel : Bool} {ses : Session} {t : State} (h : t.result = some .ok)
    (hask : ¬ ((ses.traceEnabled = true ∧ stop = true) ∨ cancel = true)) :
    (afterStep stop cancel ses t).session = some ses.count ∧
      (afterStep stop cancel ses t).outcome = t.outcome := by
  rw [afterStep_ok h, if_neg (by simpa using hask)]
  exact ⟨rfl, trace_outcome t ses.count⟩

/-- Settles O39: a turn by its two tests before the step, and the loop after a completed step by the
host's request. -/
theorem stopConditionsAreTestedInOrder : Obligations.StopConditionsAreTestedInOrder := by
  intro stop cancel ses s
  rw [runTurn_eq]
  refine ⟨fun hi => ⟨_, rfl, runTurnState_idle hi ..⟩, fun hi hb => ⟨_, rfl, runTurnState_noBudget hi hb ..⟩,
    fun u hi hb hu hok => ?_⟩
  obtain rfl := eq_stepOnceState hu
  rw [runTurnState_step hi hb]
  refine ⟨_, rfl, afterStep_sameArch .., afterStep_asked hok, fun hstop hcancel => ?_⟩
  have hnot : ¬ ((ses.traceEnabled = true ∧ stop = true) ∨ cancel = true) := by
    obtain h | h := hstop <;> simp [h, hcancel]
  exact afterStep_notAsked hok hnot

/-- A step that faults emits nothing (60_exceptions.md R203). -/
theorem stepOnceState_fault_outputs {s : State} {f : FaultRecord}
    (h : (stepOnceState s).result = some (.fault f)) : (stepOnceState s).outputs = s.outputs := by
  cases hf : s.fetch with
  | none => rw [stepOnceState_idle hf, State.idleStep_outputs]
  | some line =>
    obtain ⟨hok, -⟩ | ⟨k, hk, -⟩ := stepOnceState_result hf
    · cases hok.symm.trans h
    · rw [hk, State.raise_outputs, State.beginStep_outputs]

/-- Settles O40, by what the loop emits after a completed step and after a fault. -/
theorem snapshotFollowsEachCompletedStep : Obligations.SnapshotFollowsEachCompletedStep := by
  intro stop cancel ses s t u hi hb hu ht
  obtain rfl := eq_stepOnceState hu
  obtain rfl := eq_runTurnState ht
  rw [runTurnState_step hi hb]
  refine ⟨fun hok htr => ?_, fun hok htr => ?_, fun f hfault => ?_⟩
  · refine ⟨(stepOnceState s).snapshot ses.count, ?_, rfl, rfl, snapshot_shows (.refl _) _⟩
    rw [afterStep_ok_outputs hok, trace_of_traced (ses := ses.count) htr, State.emit_outputs]
  · rw [afterStep_ok_outputs hok, trace_of_untraced (ses := ses.count) htr]
  · rw [afterStep_fault hfault, State.endRun_outputs, stepOnceState_fault_outputs hfault]

/-! ### Two states that differ on the host's side only -/

/-- `q` is in the architectural state of `p` and has the same print events; where no snapshots are
taken, the same events altogether. -/
structure Tracks (traced : Bool) (p q : State) : Prop where
  arch : SameArch p q
  prints : printPort q = printPort p
  untraced : traced = false → q.outputs = p.outputs

theorem Tracks.stores {b : Bool} {p q : State} (h : Tracks b p q) : SameStores p q := by
  obtain ⟨-, -, -, hstores⟩ := h.arch
  exact hstores

theorem Tracks.symm {b : Bool} {p q : State} (h : Tracks b p q) : Tracks b q p :=
  ⟨h.arch.symm, h.prints.symm, fun hb => (h.untraced hb).symm⟩

theorem Tracks.trans {b : Bool} {p q r : State} (h : Tracks b p q) (h' : Tracks b q r) : Tracks b p r :=
  ⟨h.arch.trans h'.arch, h'.prints.trans h.prints, fun hb => (h'.untraced hb).trans (h.untraced hb)⟩

theorem tracks_startRun (b : Bool) (cfg : RunConfig) (s : State) : Tracks b s (startRun cfg s) :=
  ⟨.of_eq rfl rfl rfl rfl rfl rfl, rfl, fun _ => rfl⟩

theorem tracks_endRun (b : Bool) (s : State) (kind : OutcomeKind) (n : Nat) : Tracks b s (s.endRun kind n) :=
  ⟨.of_eq rfl rfl rfl rfl rfl rfl, rfl, fun _ => rfl⟩

/-- After a step the run loop emits a snapshot at most, and only in a traced run (R170). -/
theorem tracks_afterStep {ses : Session} {t : State} (h : t.result = some .ok) (stop cancel : Bool) :
    Tracks ses.traceEnabled t (afterStep stop cancel ses t) := by
  refine ⟨afterStep_sameArch .., printPort_afterStep .., fun hb => ?_⟩
  rw [afterStep_ok_outputs h, trace_of_untraced (ses := ses.count) hb]

theorem printPort_congr_append {s t s' t' : State} {new : List PortEvent} (h : printPort t = printPort s)
    (hs : s'.outputs = s.outputs ++ new) (ht : t'.outputs = t.outputs ++ new) :
    printPort t' = printPort s' := by
  unfold printPort at *
  rw [hs, ht, List.filterMap_append, List.filterMap_append, h]

/-- A `Step()` emits the same in both states. -/
theorem Tracks.step {b : Bool} {p q : State} (h : Tracks b p q) :
    Tracks b (stepOnceState p) (stepOnceState q) := by
  obtain ⟨harch, -, new, hp, hq⟩ := stepOnceState_congr h.arch
  refine ⟨harch, printPort_congr_append h.prints hp hq, fun hb => ?_⟩
  rw [hp, hq, h.untraced hb]

theorem Tracks.step_result {b : Bool} {p q : State} (h : Tracks b p q) :
    (stepOnceState q).result = (stepOnceState p).result := by
  obtain ⟨-, hres, -⟩ := stepOnceState_congr h.arch
  exact hres

/-! ### The trace port (R170) -/

theorem tracePort_congr {s t : State} (h : t.outputs = s.outputs) : tracePort t = tracePort s := by
  rw [tracePort, tracePort, h]

theorem tracePort_emit_print (s : State) (r : RegName) (v : Byte) :
    tracePort (s.emit (.print r v)) = tracePort s := by
  simp [tracePort]

theorem tracePort_emit_trace (s : State) (snap : Snapshot) :
    tracePort (s.emit (.trace snap)) = tracePort s ++ [snap] := by
  simp [tracePort]

theorem effect_tracePort (i : Instr) (s : State) : tracePort (effect i s) = tracePort s := by
  by_cases h : ∃ r, i = .print r
  · obtain ⟨r, rfl⟩ := h
    exact tracePort_emit_print s r _
  · exact tracePort_congr (effect_outputs (fun r hr => h ⟨r, hr⟩) s)

/-- A `Step()` sends nothing to the trace port. -/
theorem stepOnceState_tracePort (s : State) : tracePort (stepOnceState s) = tracePort s := by
  cases hf : s.fetch with
  | none => exact tracePort_congr (by rw [stepOnceState_idle hf, State.idleStep_outputs])
  | some line =>
    cases hd : s.decodeLine line with
    | error k => exact tracePort_congr (stepOnceState_error_outputs hf hd)
    | ok i => rw [stepOnceState_ok hf hd]; exact effect_tracePort i s.beginStep

/-- Since `s` the trace port of `t` has gained the snapshots of `n` completed steps, or none in a run
that is not traced. -/
def TracedTo (cfg : RunConfig) (s : State) (n : Nat) (t : State) : Prop :=
  ∃ snaps, tracePort t = tracePort s ++ snaps ∧
    (cfg.traceEnabled = true → snaps.map Snapshot.step = List.range' 1 n ∧
      ∀ snap ∈ snaps, snap.maxSteps = cfg.maxSteps ∧
        ∃ u, CompletedSteps snap.step s u ∧ snap.Shows u) ∧
    (cfg.traceEnabled = false → snaps = [])

theorem tracedTo_zero {cfg : RunConfig} {s t : State} (h : t.outputs = s.outputs) : TracedTo cfg s 0 t :=
  ⟨[], by rw [List.append_nil, tracePort_congr h], fun _ => ⟨rfl, nofun⟩, fun _ => rfl⟩

theorem TracedTo.congr {cfg : RunConfig} {s p q : State} {n : Nat} (h : TracedTo cfg s n p)
    (hq : tracePort q = tracePort p) : TracedTo cfg s n q := by
  unfold TracedTo
  rwa [hq]

/-- The session of a run after `n` completed steps (10_state.md R30). -/
def RunConfig.sessionAt (cfg : RunConfig) (n : Nat) : Session where
  steps := n
  maxSteps := cfg.maxSteps
  traceEnabled := cfg.traceEnabled
  stepDelay := cfg.stepDelay

/-- The snapshot of one more completed step goes out with the next number. -/
theorem TracedTo.trace {cfg : RunConfig} {s u p : State} {n : Nat} (h : TracedTo cfg s n p)
    (hu : CompletedSteps (n + 1) s u) (hp : SameArch u p) :
    TracedTo cfg s (n + 1) (p.trace (cfg.sessionAt (n + 1))) := by
  obtain ⟨snaps, hport, hon, hoff⟩ := h
  cases hb : cfg.traceEnabled with
  | false =>
    rw [trace_of_untraced (ses := cfg.sessionAt (n + 1)) hb]
    exact ⟨snaps, hport, fun h => absurd h (by simp [hb]), hoff⟩
  | true =>
    obtain ⟨hsteps, hsnaps⟩ := hon hb
    rw [trace_of_traced (ses := cfg.sessionAt (n + 1)) hb]
    refine ⟨snaps ++ [p.snapshot (cfg.sessionAt (n + 1))], ?_, fun _ => ⟨?_, ?_⟩,
      fun h => absurd h (by simp [hb])⟩
    · rw [tracePort_emit_trace, hport, List.append_assoc]
    · rw [List.map_append, hsteps, List.range'_1_concat, Nat.add_comm 1 n]
      rfl
    · intro snap hmem
      obtain hmem | hmem := List.mem_append.1 hmem
      · exact hsnaps snap hmem
      · obtain rfl := List.mem_singleton.1 hmem
        exact ⟨rfl, u, hu, snapshot_shows hp _⟩

/-! ### A run in progress -/

/-- A `Step()` that returns `Ok` is not made while Idle (R161, R162). -/
theorem not_idle_of_ok {s : State} (h : (stepOnceState s).result = some .ok) : s.idle = false := by
  cases hi : s.idle with
  | false => rfl
  | true =>
    rw [stepOnceState_idle ((fetch_none_iff s).2 hi)] at h
    cases h

theorem completedSteps_snoc {n : Nat} {s u : State} (h : CompletedSteps n s u)
    (hok : (stepOnceState u).result = some .ok) : CompletedSteps (n + 1) s (stepOnceState u) := by
  induction n generalizing s with
  | zero => cases h; exact (completedSteps_succ 0 _ _).2 ⟨hok, rfl⟩
  | succ n ih =>
    obtain ⟨hs, h⟩ := (completedSteps_succ n s u).1 h
    exact (completedSteps_succ (n + 1) s _).2 ⟨hs, ih h⟩

/-- The host asks nothing after the first `n` completed steps. -/
def Unasked (cfg : RunConfig) (stops cancels : Nat → Bool) (n : Nat) : Prop :=
  ∀ k, 0 < k → k ≤ n → ¬ AsksToEnd cfg stops cancels k

theorem Unasked.succ {cfg : RunConfig} {stops cancels : Nat → Bool} {n : Nat}
    (h : Unasked cfg stops cancels n) (hn : ¬ AsksToEnd cfg stops cancels (n + 1)) :
    Unasked cfg stops cancels (n + 1) := by
  intro k hpos hle
  obtain hle | rfl := Nat.le_succ_iff.1 hle
  · exact h k hpos hle
  · exact hn

/-- A run's state `t` beside the state `u` that `n` completed steps from the run's start lead to. -/
structure Reached (cfg : RunConfig) (s : State) (n : Nat) (u t : State) : Prop where
  steps : CompletedSteps n s u
  budget : n ≤ cfg.maxSteps
  tracks : Tracks cfg.traceEnabled u t
  traced : TracedTo cfg s n t

/-- The run from `s` is in progress in the state `r` after `n` completed steps. -/
structure InRun (cfg : RunConfig) (stops cancels : Nat → Bool) (s : State) (n : Nat) (u r : State) : Prop
    extends Reached cfg s n u r where
  session : r.session = some (cfg.sessionAt n)
  unasked : Unasked cfg stops cancels n

/-- How a run from `s` ends: the outcome, the state that so many completed steps lead to, and the state
the run leaves (R166). -/
inductive Ends (cfg : RunConfig) (stops cancels : Nat → Bool) (s : State) :
    RunOutcome → State → State → Prop
  | halted {n : Nat} {u t : State} (reached : Reached cfg s n u t) (unasked : Unasked cfg stops cancels n)
      (idle : t.idle = true) : Ends cfg stops cancels s ⟨.halted, n⟩ u t
  | budgetExhausted {u t : State} (reached : Reached cfg s cfg.maxSteps u t)
      (unasked : Unasked cfg stops cancels cfg.maxSteps) (idle : t.idle = false) :
      Ends cfg stops cancels s ⟨.budgetExhausted, cfg.maxSteps⟩ u t
  | cancelled {n : Nat} {u t : State} (reached : Reached cfg s (n + 1) u t)
      (unasked : Unasked cfg stops cancels n) (asked : AsksToEnd cfg stops cancels (n + 1)) :
      Ends cfg stops cancels s ⟨.cancelled, n + 1⟩ u t
  | faulted {n : Nat} {u t : State} {f : FaultRecord} (steps : CompletedSteps n s u)
      (budget : n < cfg.maxSteps) (unasked : Unasked cfg stops cancels n) (traced : TracedTo cfg s n t)
      (tracks : Tracks cfg.traceEnabled (stepOnceState u) t) (result : t.result = some (.fault f))
      (fault : (stepOnceState u).result = some (.fault f)) (pc : t.pc = f.index + 1) :
      Ends cfg stops cancels s ⟨.faulted f, n⟩ u t

/-- The state `t` ends the run from `s` with the outcome it holds. -/
def HasEnded (cfg : RunConfig) (stops cancels : Nat → Bool) (s t : State) : Prop :=
  t.session = none ∧ ∃ o u, t.outcome = some o ∧ Ends cfg stops cancels s o u t

section Turn

variable {cfg : RunConfig} {stops cancels : Nat → Bool} {s u r : State} {n : Nat}

theorem inRun_startRun : InRun cfg stops cancels s 0 s (startRun cfg s) where
  steps := rfl
  budget := Nat.zero_le _
  tracks := tracks_startRun _ cfg s
  traced := tracedTo_zero rfl
  session := rfl
  unasked := fun _ hpos hle => absurd hle (Nat.not_le.2 hpos)

theorem Reached.endRun (h : Reached cfg s n u r) (kind : OutcomeKind) (k : Nat) :
    Reached cfg s n u (r.endRun kind k) where
  steps := h.steps
  budget := h.budget
  tracks := h.tracks.trans (tracks_endRun _ r kind k)
  traced := h.traced.congr rfl

/-- The next completed step of a run, before the loop acts on the host's answers. -/
theorem Reached.afterStep (h : Reached cfg s n u r) (hb : n < cfg.maxSteps)
    (hok : (stepOnceState u).result = some .ok) (stop cancel : Bool) :
    Reached cfg s (n + 1) (stepOnceState u) (afterStep stop cancel (cfg.sessionAt n) (stepOnceState r)) where
  steps := completedSteps_snoc h.steps hok
  budget := hb
  tracks := h.tracks.step.trans
    (tracks_afterStep (ses := cfg.sessionAt n) (h.tracks.step_result.trans hok) stop cancel)
  traced := by
    have hstep : TracedTo cfg s n (stepOnceState r) := h.traced.congr (stepOnceState_tracePort r)
    have houts := afterStep_ok_outputs (ses := cfg.sessionAt n) (h.tracks.step_result.trans hok) stop cancel
    exact (hstep.trace (completedSteps_snoc h.steps hok) h.tracks.step.arch).congr (tracePort_congr houts)

/-- A turn that completes a step leaves the run in progress if the host does not ask to end it. -/
theorem InRun.turn_of_ok (h : InRun cfg stops cancels s n u r) (hb : n < cfg.maxSteps)
    (hok : (stepOnceState u).result = some .ok) (hask : ¬ AsksToEnd cfg stops cancels (n + 1)) :
    InRun cfg stops cancels s (n + 1) (stepOnceState u)
      (runTurnState (stops (n + 1)) (cancels (n + 1)) (cfg.sessionAt n) r) := by
  have hokr := h.tracks.step_result.trans hok
  obtain ⟨hses, -⟩ := afterStep_notAsked (ses := cfg.sessionAt n) hokr hask
  rw [runTurnState_step (not_idle_of_ok hokr) hb]
  exact { h.toReached.afterStep hb hok _ _ with
    session := hses
    unasked := h.unasked.succ hask }

/-- One turn of a run in progress ends the run or leaves it in progress with one more step. -/
theorem InRun.turn (h : InRun cfg stops cancels s n u r) :
    HasEnded cfg stops cancels s (runTurnState (stops (n + 1)) (cancels (n + 1)) (cfg.sessionAt n) r) ∨
    InRun cfg stops cancels s (n + 1) (stepOnceState u)
      (runTurnState (stops (n + 1)) (cancels (n + 1)) (cfg.sessionAt n) r) := by
  obtain ⟨hi, hr⟩ | ⟨hi, hb, hr⟩ | ⟨hi, hb, k, hk, hr⟩ | ⟨hi, hb, hok, -⟩ :=
    runTurnState_cases (stops (n + 1)) (cancels (n + 1)) (cfg.sessionAt n) r
  · rw [hr]
    exact Or.inl ⟨rfl, _, u, rfl, .halted (h.toReached.endRun _ _) h.unasked hi⟩
  · obtain rfl : n = cfg.maxSteps := Nat.le_antisymm h.budget hb
    rw [hr]
    exact Or.inl ⟨rfl, _, u, rfl, .budgetExhausted (h.toReached.endRun _ _) h.unasked hi⟩
  · have hfault : (stepOnceState u).result = some (.fault (r.beginStep.faultRecord k)) := by
      rw [← h.tracks.step_result, hk, State.raise_result]
    have htracks := h.tracks.step
    rw [hk] at htracks
    rw [hr]
    exact Or.inl ⟨rfl, _, u, rfl, .faulted h.steps hb h.unasked (h.traced.congr rfl)
      (htracks.trans (tracks_endRun ..)) rfl hfault rfl⟩
  · have hoku := h.tracks.step_result.symm.trans hok
    by_cases hask : AsksToEnd cfg stops cancels (n + 1)
    · obtain ⟨hses, hout⟩ := afterStep_asked (ses := cfg.sessionAt n) hok hask
      rw [runTurnState_step hi hb]
      exact Or.inl ⟨hses, _, _, hout, .cancelled (h.toReached.afterStep hb hoku _ _) h.unasked hask⟩
    · exact Or.inr (h.turn_of_ok hb hoku hask)

theorem InRun.turns_succ (h : InRun cfg stops cancels s n u r) (k : Nat) :
    turns stops cancels (k + 1) r =
      turns stops cancels k (runTurnState (stops (n + 1)) (cancels (n + 1)) (cfg.sessionAt n) r) :=
  Machine.turns_succ h.session

/-- Turns enough for the rest of the budget and one more end the run. -/
theorem InRun.turns_hasEnded {k : Nat} (h : InRun cfg stops cancels s n u r) (hk : cfg.maxSteps < n + k) :
    HasEnded cfg stops cancels s (turns stops cancels k r) := by
  induction k generalizing n u r with
  | zero => exact absurd h.budget (Nat.not_le.2 hk)
  | succ k ih =>
    rw [h.turns_succ]
    obtain hend | hgo := h.turn
    · rwa [turns_ended hend.1]
    · exact ih hgo (by omega)

/-- As long as the host does not ask, a run in progress goes on through the steps that complete. -/
theorem InRun.turns_completedSteps {j : Nat} {w : State} (h : InRun cfg stops cancels s n u r)
    (hw : CompletedSteps j u w) (hb : n + j ≤ cfg.maxSteps) (hask : Unasked cfg stops cancels (n + j)) (k : Nat) :
    ∃ q, turns stops cancels (j + k) r = turns stops cancels k q ∧ InRun cfg stops cancels s (n + j) w q := by
  induction j generalizing n u r with
  | zero =>
    cases hw
    exact ⟨r, by rw [Nat.zero_add], h⟩
  | succ j ih =>
    obtain ⟨hok, hw⟩ := (completedSteps_succ j u w).1 hw
    have hnext := h.turn_of_ok (by omega) hok (hask (n + 1) (by omega) (by omega))
    rw [Nat.succ_add, h.turns_succ]
    rw [show n + (j + 1) = n + 1 + j by omega] at hb hask ⊢
    exact ih hnext hw hb hask

end Turn

/-! ### Whole runs -/

theorem run_eq (cfg : RunConfig) (stops cancels : Nat → Bool) (s : State) :
    run cfg stops cancels s = .next (turns stops cancels (cfg.maxSteps + 1) (startRun cfg s)) :=
  runTurns_eq ..

theorem turns_startRun_hasEnded (cfg : RunConfig) (stops cancels : Nat → Bool) (s : State) :
    HasEnded cfg stops cancels s (turns stops cancels (cfg.maxSteps + 1) (startRun cfg s)) :=
  inRun_startRun.turns_hasEnded (by omega)

theorem run_ends {cfg : RunConfig} {stops cancels : Nat → Bool} {s t : State} {o : RunOutcome}
    (h : run cfg stops cancels s = .next t) (ho : t.outcome = some o) :
    t.session = none ∧ ∃ u, Ends cfg stops cancels s o u t := by
  obtain rfl := Host.Outcome.next.inj (h.symm.trans (run_eq ..))
  obtain ⟨hses, o', u, ho', hends⟩ := turns_startRun_hasEnded cfg stops cancels s
  obtain rfl := Option.some.inj (ho.symm.trans ho')
  exact ⟨hses, u, hends⟩

theorem Reached.stores {cfg : RunConfig} {s u t : State} {n : Nat} (h : Reached cfg s n u t) : SameStores s t :=
  h.steps.stores.trans h.tracks.stores

/-- Settles O42, by how a run ends. -/
theorem everyRunEndsWithinItsBudget : Obligations.EveryRunEndsWithinItsBudget := by
  intro cfg stops cancels s
  obtain ⟨hses, o, u, ho, hends⟩ := turns_startRun_hasEnded cfg stops cancels s
  refine ⟨_, o, u, run_eq cfg stops cancels s, hses, ho, ?_⟩
  cases hends with
  | halted h hun hi =>
    exact ⟨h.budget, h.stores, h.steps, fun _ => ⟨h.tracks.arch, h.tracks.prints⟩, nofun, nofun,
      fun _ => (idle_eq_true_iff _).1 hi, nofun, fun k hpos hle hask => (hun k hpos hle hask).elim⟩
  | budgetExhausted h hun hi =>
    exact ⟨h.budget, h.stores, h.steps, fun _ => ⟨h.tracks.arch, h.tracks.prints⟩, nofun,
      fun _ => ⟨rfl, (idle_eq_false_iff _).1 hi⟩, nofun, nofun,
      fun k hpos hle hask => (hun k hpos hle hask).elim⟩
  | cancelled h hun hask =>
    refine ⟨h.budget, h.stores, h.steps, fun _ => ⟨h.tracks.arch, h.tracks.prints⟩, nofun, nofun, nofun,
      fun _ => ⟨Nat.succ_pos _, hask⟩, fun k hpos hle hask' => ⟨?_, rfl⟩⟩
    exact (Nat.le_succ_iff.1 hle).resolve_left fun hle => hun k hpos hle hask'
  | faulted hsteps hb hun _ htracks hres hfault hpc =>
    refine ⟨hb.le, ?_, hsteps, fun h => absurd rfl (h _), ?_, nofun, nofun, nofun,
      fun k hpos hle hask => (hun k hpos hle hask).elim⟩
    · exact (hsteps.stores.trans (stepOnceState_frame u).1).trans htracks.stores
    · rintro f ⟨⟩
      exact ⟨hb, hres, hpc, _, stepOnce_eq u, hfault, htracks.arch, htracks.prints⟩

/-- Settles O43: however a run ends, its trace port holds the snapshots of its completed steps. -/
theorem tracedRunsNumberTheirSnapshotsFromOne : Obligations.TracedRunsNumberTheirSnapshotsFromOne := by
  intro cfg stops cancels s t o hrun ho
  obtain ⟨-, u, hends⟩ := run_ends hrun ho
  have htraced : TracedTo cfg s o.steps t := by
    cases hends with
    | halted h | budgetExhausted h | cancelled h => exact h.traced
    | faulted _ _ _ h => exact h
  exact htraced

/-! ### Two runs as one (R175) -/

/-- A session as the longer run has it, with `n` completed steps before it. -/
def Session.shift (n : Nat) (ses : Session) : Session :=
  { ses with steps := n + ses.steps, maxSteps := n + ses.maxSteps }

/-- An outcome as the longer run has it. -/
def RunOutcome.shift (n : Nat) (o : RunOutcome) : RunOutcome := { o with steps := n + o.steps }

/-- `q` is a state of the longer run where the run that continues after `n` steps is in `p`. -/
structure Continues (n : Nat) (traced : Bool) (p q : State) : Prop where
  tracks : Tracks traced p q
  session : q.session = p.session.map (Session.shift n)
  outcome : p.session = none → q.outcome = p.outcome.map (RunOutcome.shift n)
  traced : ∀ ses ∈ p.session, ses.traceEnabled = traced

section Continue

variable {n : Nat} {traced : Bool} {p q : State}

theorem Tracks.continues_endRun (h : Tracks traced p q) (kind : OutcomeKind) (k : Nat) :
    Continues n traced (p.endRun kind k) (q.endRun kind (n + k)) where
  tracks := ((tracks_endRun _ p kind k).symm.trans h).trans (tracks_endRun _ q kind (n + k))
  session := rfl
  outcome := fun _ => rfl
  traced := nofun

/-- After a completed step the loop does the same with the same answers of the host. -/
theorem Tracks.continues_afterStep {ses : Session} (h : Tracks ses.traceEnabled p q) (hok : p.result = some .ok)
    (hres : q.result = p.result) (stop cancel : Bool) :
    Continues n ses.traceEnabled (afterStep stop cancel ses p) (afterStep stop cancel (ses.shift n) q) := by
  have hokq := hres.trans hok
  have htracks := ((tracks_afterStep hok stop cancel).symm.trans h).trans
    (tracks_afterStep (ses := ses.shift n) hokq stop cancel)
  by_cases hask : (ses.traceEnabled = true ∧ stop = true) ∨ cancel = true
  · obtain ⟨hses, hout⟩ := afterStep_asked hok hask
    obtain ⟨hsesq, houtq⟩ := afterStep_asked (ses := ses.shift n) hokq hask
    exact {
      tracks := htracks
      session := by rw [hses, hsesq]; rfl
      outcome := fun _ => by rw [hout, houtq]; rfl
      traced := by simp [hses] }
  · obtain ⟨hses, -⟩ := afterStep_notAsked hok hask
    obtain ⟨hsesq, -⟩ := afterStep_notAsked (ses := ses.shift n) hokq hask
    exact {
      tracks := htracks
      session := by rw [hses, hsesq]; rfl
      outcome := fun hnone => nomatch hses.symm.trans hnone
      traced := by simp [hses, Session.count] }

/-- One turn of both runs with the same answers of the host. -/
theorem Continues.turn (h : Continues n traced p q) {ses : Session} (hs : p.session = some ses)
    (stop cancel : Bool) :
    Continues n traced (runTurnState stop cancel ses p) (runTurnState stop cancel (ses.shift n) q) := by
  obtain rfl := h.traced ses hs
  have hidle := h.tracks.arch.idle_eq
  obtain ⟨hi, hr⟩ | ⟨hi, hb, hr⟩ | ⟨hi, hb, k, hk, -⟩ | ⟨hi, hb, hok, -⟩ := runTurnState_cases stop cancel ses p
  · rw [hr, runTurnState_idle (hidle.trans hi)]
    exact h.tracks.continues_endRun _ _
  · rw [hr, runTurnState_noBudget (hidle.trans hi) (Nat.add_le_add_left hb n)]
    exact h.tracks.continues_endRun _ _
  · have hfault : (stepOnceState p).result = some (.fault (p.beginStep.faultRecord k)) := by
      rw [hk, State.raise_result]
    rw [runTurnState_step hi hb, runTurnState_step (hidle.trans hi) (Nat.add_lt_add_left hb n),
      afterStep_fault hfault, afterStep_fault (h.tracks.step_result.trans hfault)]
    exact h.tracks.step.continues_endRun _ _
  · rw [runTurnState_step hi hb, runTurnState_step (hidle.trans hi) (Nat.add_lt_add_left hb n)]
    exact h.tracks.step.continues_afterStep hok h.tracks.step_result stop cancel

theorem Continues.turns (h : Continues n traced p q) (stops cancels : Nat → Bool) (k : Nat) :
    Continues n traced (turns stops cancels k p) (turns (answersAfter n stops) (answersAfter n cancels) k q) := by
  induction k generalizing p q with
  | zero => exact h
  | succ k ih =>
    cases hs : p.session with
    | none =>
      rw [turns_ended hs, turns_ended (by rw [h.session, hs]; rfl)]
      exact h
    | some ses =>
      have hsq : q.session = some (ses.shift n) := by rw [h.session, hs]; rfl
      have hturn := h.turn hs (stops (ses.steps + 1)) (cancels (ses.steps + 1))
      rw [← answersAfter_later n ses.steps stops, ← answersAfter_later n ses.steps cancels] at hturn
      rw [turns_succ hs, turns_succ hsq, ← answersAfter_later n ses.steps stops,
        ← answersAfter_later n ses.steps cancels]
      exact ih hturn

end Continue

/-- A run that its budget or the host ended has reached the state of its completed steps. -/
theorem Ends.reached {cfg : RunConfig} {stops cancels : Nat → Bool} {s u t : State} {o : RunOutcome}
    (h : Ends cfg stops cancels s o u t) (hkind : o.kind = .budgetExhausted ∨ o.kind = .cancelled) :
    Reached cfg s o.steps u t := by
  cases h with
  | halted h | budgetExhausted h | cancelled h => exact h
  | faulted => simp at hkind

theorem unasked_answersAfter (cfg : RunConfig) (n : Nat) (stops cancels : Nat → Bool) :
    Unasked cfg (answersAfter n stops) (answersAfter n cancels) n := by
  intro k _ hle
  simp [AsksToEnd, answersAfter_before hle]

/-- Settles O44: through the first run's steps the one run is in progress, and from there it makes the
second run's turns with the second run's answers. -/
theorem runsContinueWhereTheBudgetStoppedThem : Obligations.RunsContinueWhereTheBudgetStoppedThem := by
  intro m k delay traced stops cancels stops' cancels' s t t' o o' hrun ho hkind hrun' ho'
  obtain ⟨-, u, hends⟩ := run_ends hrun ho
  obtain ⟨hses', -⟩ := run_ends hrun' ho'
  have hreached := hends.reached hkind
  obtain rfl := Host.Outcome.next.inj (hrun'.symm.trans (run_eq ..))
  obtain ⟨q, hturns, hq⟩ :=
    (inRun_startRun (cfg := ⟨o.steps + k, traced, delay⟩) (stops := answersAfter o.steps stops')
      (cancels := answersAfter o.steps cancels')).turns_completedSteps hreached.steps (by simp)
      (by rw [Nat.zero_add]; exact unasked_answersAfter _ _ _ _) (k + 1)
  have hstart : Continues o.steps traced (startRun ⟨k, traced, delay⟩ t) q :=
    { tracks := ((tracks_startRun traced _ t).symm.trans hreached.tracks.symm).trans hq.tracks
      session := by rw [hq.session, Nat.zero_add]; rfl
      outcome := nofun
      traced := by simp [startRun] }
  have hcont := hstart.turns stops' cancels' (k + 1)
  refine ⟨_, run_eq .., ?_⟩
  rw [Nat.add_assoc, hturns]
  exact ⟨hcont.tracks.arch, hcont.tracks.prints, hcont.tracks.untraced, by rw [hcont.outcome hses', ho']; rfl⟩

end Sys2Proof.Machine
end

section
/-! PROOFS. Family 60_exceptions.md: what a faulting `Step()` commits, what its record holds, and how it
ends a run. -/

namespace Sys2Proof.Machine

/-- A faulting step raises the fault with the record of the fetched line, for the decoder's error or for
DIV's zero divisor (60_exceptions.md R201, R202). -/
theorem stepOnceState_fault {s : State} {line : Line} {f : FaultRecord} (hf : s.fetch = some line)
    (h : (stepOnceState s).result = some (.fault f)) :
    stepOnceState s = s.beginStep.raise f.kind ∧
    f = { kind := f.kind, index := s.pc, opcode := (tokens line).head?, operands := (tokens line).tail,
          line := line } ∧
    (s.decodeLine line = .error f.kind ∨
      (f.kind = .divisionByZero ∧
        ∃ r1 r2, s.decodeLine line = .ok (.div r1 r2) ∧ (s.readReg r2).toNat = 0)) := by
  obtain ⟨hok, -⟩ | ⟨k, hk, hcause⟩ := stepOnceState_result hf
  · cases hok.symm.trans h
  · rw [hk, State.raise_result, beginStep_faultRecord hf] at h
    cases h
    exact ⟨hk, rfl, hcause⟩

/-- A faulting step writes pc and the returned record, and nothing else (60_exceptions.md R203). -/
theorem stepOnceState_fault_commits {s : State} {f : FaultRecord} (hi : s.idle = false)
    (h : (stepOnceState s).result = some (.fault f)) :
    stepOnceState s = { s with pc := s.pc + 1, result := some (.fault f) } ∧ f.index = s.pc := by
  obtain ⟨line, hf⟩ := fetch_of_not_idle hi
  obtain ⟨hraise, hrecord, -⟩ := stepOnceState_fault hf h
  refine ⟨?_, congrArg FaultRecord.index hrecord⟩
  rw [← h, hraise]
  rfl

/-- Settles O13: the step writes pc and the record, and the record's index is the pc before. -/
theorem faultingStepCommitsOnlyThePcAdvance : Obligations.FaultingStepCommitsOnlyThePcAdvance := by
  intro s t f hstep hfault hi
  obtain rfl := eq_stepOnceState hstep
  obtain ⟨hcommits, hindex⟩ := stepOnceState_fault_commits hi hfault
  exact ⟨by rw [hindex, hcommits], hindex⟩

/-- Settles O14, field by field from the record of the fetched line. -/
theorem faultRecordDescribesTheFaultingLine : Obligations.FaultRecordDescribesTheFaultingLine := by
  intro s t line f hf hstep hfault
  obtain rfl := eq_stepOnceState hstep
  obtain ⟨-, hrecord, hcause⟩ := stepOnceState_fault hf hfault
  exact ⟨congrArg FaultRecord.index hrecord, congrArg FaultRecord.line hrecord,
    congrArg FaultRecord.opcode hrecord, congrArg FaultRecord.operands hrecord, hcause⟩

/-- Settles O41: after a fault the loop only ends the run, and the step before it wrote pc and the record. -/
theorem faultEndsTheRunWhateverTheHostAnswers : Obligations.FaultEndsTheRunWhateverTheHostAnswers := by
  intro stop cancel ses s u f hi hb hstep hfault
  obtain rfl := eq_stepOnceState hstep
  rw [runTurn_eq, runTurnState_step hi hb, afterStep_fault hfault, (stepOnceState_fault_commits hi hfault).1]
  rfl

end Sys2Proof.Machine
end

section
/-! PROOFS. Family 70_reset_and_hazards.md: what Init, a program load and the start of a run leave, and
that every operation of the host keeps the invariant. -/

namespace Sys2Proof.Machine

/-! ### Program load (R241) -/

/-- A program load is refused with no effect when some pair of its table lies outside [0, N]. -/
theorem loadProgram_of_not_inRange {prog : List Line} {labels : LabelTable}
    (h : ¬ ∀ p ∈ labels, p.2 ≤ prog.length) (s : State) : loadProgram prog labels s = (.refused, s) := by
  rw [loadProgram_eq, if_neg (mt labelsInRange_iff.1 h)]

/-- An accepted load puts pc at 0 and installs a table that was tested; a refused one has no effect. -/
theorem loadProgram_inv {s : State} (h : s.Inv) (prog : List Line) {labels : LabelTable}
    (hnodup : (labels.map Prod.fst).Nodup) : (loadProgram prog labels s).2.Inv := by
  by_cases hrange : ∀ p ∈ labels, p.2 ≤ prog.length
  · obtain ⟨-, -, hsession⟩ := h
    rw [loadProgram_of_inRange hrange]
    exact ⟨Nat.zero_le _, ⟨hnodup, hrange⟩, hsession⟩
  · rwa [loadProgram_of_not_inRange hrange]

/-! ### A run, from its start on (R242, R165) -/

theorem startRun_sameArch (cfg : RunConfig) (s : State) : SameArch s (startRun cfg s) :=
  .of_eq rfl rfl rfl rfl rfl rfl

/-- The new session has counted no step, and the start of a run clears the outcome. -/
theorem startRun_inv {s : State} (h : s.Inv) (cfg : RunConfig) : (startRun cfg s).Inv := by
  refine h.of_sameArch (startRun_sameArch cfg s) ?_
  rintro ses ⟨⟩
  exact ⟨Nat.zero_le _, rfl⟩

theorem turns_inv {s : State} (h : s.Inv) (stops cancels : Nat → Bool) (k : Nat) :
    (turns stops cancels k s).Inv := by
  induction k generalizing s with
  | zero => exact h
  | succ k ih =>
    cases hs : s.session with
    | none => rwa [turns_ended hs]
    | some ses =>
      rw [turns_succ hs]
      exact ih (runTurnState_inv h hs _ _)

/-- Settles O24: Init leaves the reset state, and a whole run is its start followed by turns. -/
theorem hostOperationsKeepTheInvariant : Obligations.HostOperationsKeepTheInvariant := by
  refine ⟨fun _ => resetMeetsTheInvariant, fun prog _ _ h hnodup => loadProgram_inv h prog hnodup,
    fun cfg _ h => startRun_inv h cfg, fun stop cancel ses s t h hs ht => ?_,
    fun cfg stops cancels s t h ht => ?_⟩
  · rw [eq_runTurnState ht]
    exact runTurnState_inv h hs stop cancel
  · obtain rfl := Host.Outcome.next.inj (ht.symm.trans (run_eq ..))
    exact turns_inv (startRun_inv h cfg) stops cancels _

/-- Settles O26: a binding in force is a pair of the table, and the load tests every pair. -/
theorem loadProgramInstallsOrRefuses : Obligations.LoadProgramInstallsOrRefuses := by
  refine fun prog labels s => ⟨?_, fun hrange => loadProgram_of_inRange hrange s⟩
  rintro ⟨name, i, hlookup, hi⟩
  refine loadProgram_of_not_inRange (fun hrange => ?_) s
  exact absurd (hrange (name, i) (mem_of_labelLookup hlookup)) (Nat.not_le.2 hi)

/-- Settles O25: Init is the reset state, whose fields are read off. -/
theorem initLeavesTheResetValues : Obligations.InitLeavesTheResetValues := by
  refine fun s => ⟨fun r => ?_, rfl, rfl, rfl, rfl, rfl, rfl, rfl, rfl⟩
  cases r <;> rfl

/-- Settles O38: the start of a run writes the session and the outcome only. -/
theorem startingARunChangesNoArchitecturalState : Obligations.StartingARunChangesNoArchitecturalState :=
  fun cfg s => ⟨startRun_sameArch cfg s, rfl, _, rfl, rfl, rfl, rfl, rfl⟩

end Sys2Proof.Machine
end

section
/-! PROOFS. Family other: the step answers a next state from every state. -/

namespace Sys2Proof.Machine

/-- Settles O10: `stepState` is the next state, in a direct step and in a turn of the run loop alike. -/
theorem everyStepAnswersANextState : Obligations.EveryStepAnswersANextState :=
  fun s => ⟨stepState s, step_eq s⟩

end Sys2Proof.Machine
end
